-- ==== Sys2Proof/Word.lean ====
section
/-!
DEFINITION. Word.lean: the word types of the core (R8, R10, R11). All values are unsigned (R10).
-/

namespace Sys2Proof

/-- One byte of the data buffer or of a key (R50, R25). -/
abbrev Byte := BitVec 8

/-- A host-visible register or a command word, 32 bits (R8). -/
abbrev Word := BitVec 32

/-- A subkey, a half of a block or a key half, 64 bits (R7, R11). -/
abbrev DWord := BitVec 64

end Sys2Proof
end

