-- ==== Sys2Proof/Syntax.lean ====
section
/-!
DEFINITION. Syntax.lean: the five commands of the core (R72), one constructor per row of the opcode table.
Commands take no operand bits (R74), so no constructor has an argument. A word that is none of the five is no
instruction: the `CMD` write itself performs its IllegalCommand outcome (R73, R205).
-/

namespace Sys2Proof

/-- A command, named as R72 names it. -/
inductive Instr where
  /-- NOP (R200). -/
  | nop
  /-- DERIVE_SCHEDULE (R149). -/
  | deriveSchedule
  /-- ENCRYPT_BLOCKS (R176). -/
  | encryptBlocks
  /-- DECRYPT_BLOCKS (R177). -/
  | decryptBlocks
  /-- CLEAR (R201). -/
  | clear
  deriving DecidableEq, Repr

end Sys2Proof
end

