-- ==== Sys2Proof/WellFormed.lean ====
section
/-!
DEFINITION. WellFormed.lean: what makes a command and a command word well formed (R71, R72). A command has no
operand, so every command is well formed; a command WORD is well formed when its reserved field is 0 and its selector
is one of the five (R73).
-/

namespace Sys2Proof

/-- Every command is well formed: no constructor has an operand that could be out of range (R74). -/
def Instr.wf : Instr → Bool
  | .nop => true
  | .deriveSchedule => true
  | .encryptBlocks => true
  | .decryptBlocks => true
  | .clear => true

/-- The reserved field of a command word, bits 31:4, is 0 (R71). -/
def CommandWord.rsvdOk (w : Word) : Bool := w.toNat / 16 == 0

/-- The selector of a command word, bits 3:0, is at most 4 (R72, R73). -/
def CommandWord.opOk (w : Word) : Bool := decide (w.toNat % 16 ≤ 4)

/-- A command word is well formed: both checks of R73 hold. -/
def CommandWord.wf (w : Word) : Bool := CommandWord.rsvdOk w && CommandWord.opOk w

end Sys2Proof
end

