-- ==== Sys2Proof/Decode.lean ====
section
/-!
DEFINITION. Decode.lean: the command decoder, total on all 2^32 command words (R71 to R73, R75), and the encoder.
-/

namespace Sys2Proof

/-- Why a word is no command (R75). -/
inductive DecodeReject where
  /-- The field RSVD is not 0. -/
  | reservedBits (rsvd : BitVec 28)
  /-- RSVD is 0 and the selector OP is one of the reserved 0x5 .. 0xF. -/
  | reservedSelector (op : BitVec 4)
  deriving DecidableEq, Repr

/-- The field OP of a command word, bits 3:0 (R71). -/
def opField (w : Word) : BitVec 4 := w.extractLsb' 0 4

/-- The field RSVD of a command word, bits 31:4 (R71). -/
def rsvdField (w : Word) : BitVec 28 := w.extractLsb' 4 28

/-- The selector table of R72, by the value of OP; `none` for the reserved selectors. -/
def selector : Nat → Option Instr
  | 0x0 => some .nop
  | 0x1 => some .deriveSchedule
  | 0x2 => some .encryptBlocks
  | 0x3 => some .decryptBlocks
  | 0x4 => some .clear
  | _ => none

/-- Decoding of a command word (R73): RSVD must be 0, then OP selects the row of R72; every other word is rejected by
name (R75). -/
def decode (w : Word) : Except DecodeReject Instr :=
  if rsvdField w = 0 then
    match selector (opField w).toNat with
    | some i => .ok i
    | none => .error (.reservedSelector (opField w))
  else .error (.reservedBits (rsvdField w))

/-- The selector of a command (R72). -/
def encodeOp : Instr → BitVec 4
  | .nop => 0x0
  | .deriveSchedule => 0x1
  | .encryptBlocks => 0x2
  | .decryptBlocks => 0x3
  | .clear => 0x4

/-- The command word of a command: RSVD 0 above OP (R71, R72). -/
def encode (i : Instr) : Word := (0 : BitVec 28) ++ encodeOp i

/-- The command that the decoder reads from an opcode-table word of `nbits` bits, bit 0 the least significant; `none`
where the word is illegal. A command is one 32-bit word (R71), so a number that does not fit one is no command
(assumption log entry 13). -/
def decodeTableWord (nbits w : Nat) : Option Instr :=
  if w % 2 ^ nbits < 2 ^ 32 then
    match decode (BitVec.ofNat 32 (w % 2 ^ nbits)) with
    | .ok i => some i
    | .error _ => none
  else none

end Sys2Proof
end

