-- ==== Sys2Proof/Machine/Bits.lean ====
section
/-!
DEFINITION. Machine/Bits.lean: byte numbering, rotations and big-endian conversions (R10 to R13).
-/

namespace Sys2Proof.Machine

/-- `byte(i, w) = w[63-8i : 56-8i]`: byte 0 is the most significant of the eight (R11). -/
def byteOf (i : Fin 8) (w : DWord) : Byte := w.extractLsb' (56 - 8 * i.val) 8

/-- `hi32(w) = w[63:32]` (R11). -/
def hi32 (w : DWord) : Word := w.extractLsb' 32 32

/-- `lo32(w) = w[31:0]` (R11). -/
def lo32 (w : DWord) : Word := w.extractLsb' 0 32

/-- `rol_N(v, s)`: the left rotation of an N-bit value by `s < N` bits (R12). -/
def rol {n : Nat} (v : BitVec n) (s : Nat) : BitVec n :=
  if s = 0 then v else (v <<< s) ||| (v >>> (n - s))

/-- `be64(b[0..7])`: the concatenation of eight bytes, `b[0]` most significant (R13). -/
def be64 (b : Fin 8 → Byte) : DWord :=
  b 0 ++ b 1 ++ b 2 ++ b 3 ++ b 4 ++ b 5 ++ b 6 ++ b 7

/-- `be32(b[0..3])`: the concatenation of four bytes, `b[0]` most significant (R13). -/
def be32 (b : Fin 4 → Byte) : Word :=
  b 0 ++ b 1 ++ b 2 ++ b 3

/-- Byte `m` of a 32-bit word, byte 0 in bits 31:24: the packing of the key buffer (R25). -/
def byteOfWord (m : Fin 4) (w : Word) : Byte := w.extractLsb' (24 - 8 * m.val) 8

/-- A 16-byte block `blk[0..15]` (R16). -/
abbrev Block := Vector Byte 16

/-- The first half of a block as a big-endian word, the loaded `D1` (R52). -/
def Block.hi (b : Block) : DWord := be64 fun i => b[i.val]

/-- The second half of a block as a big-endian word, the loaded `D2` (R52). -/
def Block.lo (b : Block) : DWord := be64 fun i => b[i.val + 8]

/-- `bytes64(x) ‖ bytes64(y)`: the block of the bytes of `x` and then of `y` (R13, R53). -/
def Block.ofWords (x y : DWord) : Block :=
  #v[byteOf 0 x, byteOf 1 x, byteOf 2 x, byteOf 3 x, byteOf 4 x, byteOf 5 x, byteOf 6 x, byteOf 7 x,
     byteOf 0 y, byteOf 1 y, byteOf 2 y, byteOf 3 y, byteOf 4 y, byteOf 5 y, byteOf 6 y, byteOf 7 y]

/-- The block of the first 16 bytes of a list; used on lists of 16 bytes only. -/
def Block.ofBytes (l : List Byte) : Block := Vector.ofFn fun i : Fin 16 => l.getD i.val 0

end Sys2Proof.Machine
end

