-- ==== Sys2Proof/Config.lean ====
section
/-!
DEFINITION. Config.lean: the fixed parameters of the core (R7, R8) and the two it leaves open (R9).
-/

namespace Sys2Proof.Config

/-- `BLOCK_BYTES`: the size of a block in bytes (R7). -/
abbrev blockBytes : Nat := 16

/-- The size of the register block in bytes of offsets (R8). -/
abbrev regBlockBytes : Nat := 0x100

/-- The size of a register in bytes (R8, R58). -/
abbrev regBytes : Nat := 4

/-- `SK_MAX`: the capacity of the subkey file (R8). -/
abbrev skMax : Nat := 34

/-- The number of bytes of the data buffer beyond the 16 it has at least. Opaque: nothing of its value can be proved
(R9, D12; assumption log entry 2). -/
opaque bufExtra : Nat

/-- `BUF_BYTES`, the open parameter: a natural number of which only `16 ≤ BUF_BYTES` is known (R9, D12). -/
def bufBytes : Nat := bufExtra + 16

/-- `N_INST - 1`: how many copies of the core the platform has beside the first. Opaque, so that only `1 ≤ N_INST` is
known (R9, D30; assumption log entry 1). -/
opaque otherCopies : Nat

end Sys2Proof.Config
end

