-- ==== Sys2Proof/Machine/State.lean ====
section
/-!
DEFINITION. Machine/State.lean: the state of one core copy (R20 to R39), the platform that holds the copies (R40, R236),
the host's requests (R65) and readings (R76), and the reset state (R260).
-/

namespace Sys2Proof.Machine

/-- The data buffer `DATA` (R38): the written bytes with their addresses, addresses strictly rising. An address that is
not listed is unwritten (R39). -/
abbrev Memory := List Host.Cell

/-- The state of one core copy, as section 9 of 10_state.md records it. `KEY_SET` and `BUSY` are computed
(`Machine/Flags.lean`), `CMD` holds nothing (R26), and the working registers of R35 hold 0 between commands (R36). -/
structure CoreState where
  /-- The open parameter `BUF_BYTES` (R9); no step changes it. -/
  bufBytes : Nat
  /-- `KEYLEN` (R21). -/
  keylen : Word
  /-- `NBLK` (R22). -/
  nblk : Word
  /-- `SRC` (R23). -/
  src : Word
  /-- `DST` (R24). -/
  dst : Word
  /-- `KEY0..KEY7`, the key buffer (R25). -/
  key : Vector Word 8
  /-- `SK[0..33]`, the subkey file (R33). -/
  sk : Vector DWord 34
  /-- `STATUS.VARIANT` (R29): 0 no schedule, 1, 2, 3 a schedule of a 16-, 24-, 32-byte key. -/
  variant : BitVec 2
  /-- `STATUS.ERR` (R30): the result code of the last command. -/
  err : BitVec 4
  /-- `DATA` (R38, R39). -/
  data : Memory
  deriving DecidableEq, Repr

/-- The reset state of one copy with a buffer of `bufBytes` bytes (R260): every register 0, every `DATA` byte
unwritten. -/
def CoreState.reset (bufBytes : Nat) : CoreState where
  bufBytes := bufBytes
  keylen := 0
  nblk := 0
  src := 0
  dst := 0
  key := Vector.replicate 8 0
  sk := Vector.replicate 34 0
  variant := 0
  err := 0
  data := []

/-- What can be asked of one copy. The widths are in bytes; an access of another width than the contract's is refused
(R58), whatever its value, so a value of the contract's width is all that is carried. -/
inductive HostOp where
  /-- The host writes `value` to the register at `offset` (R202, R26). -/
  | regWrite (offset width : Nat) (value : Word)
  /-- The host reads the register at `offset` (R203). -/
  | regRead (offset width : Nat)
  /-- The host writes a byte of the data buffer (R204). -/
  | dataWrite (addr width : Nat) (value : Byte)
  /-- The host reads a byte of the data buffer (R204). -/
  | dataRead (addr width : Nat)
  /-- The platform resets the copy (R260). -/
  | reset
  deriving DecidableEq, Repr

/-- A request to the copy of index `copy` (R236: copies have no identifier of their own; the index is the platform's). -/
structure Request where
  copy : Nat
  op : HostOp
  deriving DecidableEq, Repr

/-- A value that a read returned to the host ("the script records the value", R76). -/
inductive Reading where
  /-- The register at `offset` of the copy `copy` read as `value`. -/
  | reg (copy offset : Nat) (value : Word)
  /-- The data byte at `addr` of the copy `copy` read as `value`. -/
  | data (copy addr : Nat) (value : Byte)
  deriving DecidableEq, Repr

/-- Why a run stops in a fault. -/
inductive Fault where
  /-- A read of an unwritten `DATA` byte, by the host (`dataRead`) or as input of ENCRYPT_BLOCKS or DECRYPT_BLOCKS: the
  spec gives no value and asks for a fault (R57, R229, M1). Safe: the hardware returns some byte. -/
  | unwrittenData (addr : Nat)
  deriving DecidableEq, Repr

/-- Why a request is refused. -/
inductive Refusal where
  /-- An instruction whose meaning is not written; raised by an arm of `exec` only. Safe. No arm raises it. -/
  | notModelled (mnemonic : String)
  /-- A host access outside the contract of R58 (R206, R229, M2). Raised by a request, never by a command. Safe. -/
  | hostAccessRefused
  /-- A request to a copy that the platform does not hold (R9, R236; assumption log entry 8). Safe. -/
  | noSuchCopy (copy : Nat)
  deriving DecidableEq, Repr

/-- The whole state: the copies of the core, seen from the one that the present access addresses (R40), the requests
still to be performed in their one total order (R65), and what the host has read. -/
structure State where
  /-- The copy that the present access addresses. -/
  core : CoreState
  /-- The copies of smaller index, in order. -/
  before : List CoreState
  /-- The copies of larger index, in order. -/
  after : List CoreState
  /-- The host accesses and resets still to be performed, the next one first (the model's own field). -/
  pending : List Request
  /-- What the host's reads returned, newest first (the model's own field). -/
  observed : List Reading
  deriving DecidableEq, Repr

/-- The platform right after reset, with buffers of `bufBytes` bytes and `otherCopies` copies beside copy 0. -/
def State.resetWith (bufBytes otherCopies : Nat) : State where
  core := CoreState.reset bufBytes
  before := []
  after := List.replicate otherCopies (CoreState.reset bufBytes)
  pending := []
  observed := []

/-- The machine right after reset (R260), for the open parameters of R9. -/
def State.reset : State := State.resetWith Config.bufBytes Config.otherCopies

end Sys2Proof.Machine
end

