-- ==== Sys2Proof/Machine/Ops.lean ====
section
/-!
DEFINITION. Machine/Ops.lean: the named operations over the data buffer, the register block, the result code and the
copies of the platform. Every reading or writing of a register by the host goes through `CoreState.readReg` and
`CoreState.writeReg`, every reading or writing of `DATA` through `Memory.read` and `Memory.write`.
-/

namespace Sys2Proof.Machine

/-! ### The data buffer (R38, R39, R14) -/

/-- The value of the byte at an address, `none` where it is unwritten (R39). -/
def Memory.read : Memory → Nat → Option Byte
  | [], _ => none
  | c :: m, a => if c.1 = a then some c.2 else Memory.read m a

/-- Stores one byte and marks it written (R60, R204), keeping the addresses strictly rising. -/
def Memory.write : Memory → Nat → Byte → Memory
  | [], a, b => [(a, b)]
  | c :: m, a, b =>
    if a < c.1 then (a, b) :: c :: m
    else if c.1 = a then (a, b) :: m
    else c :: Memory.write m a b

/-- The canonical form of a memory: strictly rising addresses. An unlisted address is unwritten, so no listed entry can
equal what an unlisted address reads as. -/
abbrev Memory.wf (m : Memory) : Prop := (m.map Prod.fst).Pairwise (· < ·)

/-- `MemRead(a, n)` (R14), in ascending order; a fault at the first unwritten byte (R57). -/
def Memory.readBytes (m : Memory) : Nat → Nat → Except Fault (List Byte)
  | _, 0 => .ok []
  | a, n + 1 =>
    match Memory.read m a with
    | none => .error (.unwrittenData a)
    | some b =>
      match Memory.readBytes m (a + 1) n with
      | .ok bs => .ok (b :: bs)
      | .error f => .error f

/-- `MemWrite(a, n, b)` (R14): the byte `b[0]` at the address `a`. -/
def Memory.writeBytes : Memory → Nat → List Byte → Memory
  | m, _, [] => m
  | m, a, b :: bs => Memory.writeBytes (Memory.write m a b) (a + 1) bs

/-- `MemRead(a, 16)` as a block. -/
def Memory.readBlock (m : Memory) (a : Nat) : Except Fault Block :=
  match Memory.readBytes m a Config.blockBytes with
  | .ok bs => .ok (Block.ofBytes bs)
  | .error f => .error f

/-- `MemWrite(a, 16, blk)`. -/
def Memory.writeBlock (m : Memory) (a : Nat) (blk : Block) : Memory :=
  Memory.writeBytes m a blk.toList

/-! ### Result codes (R30, R220) -/

/-- The outcomes of a command (R220). -/
inductive ErrorCode where
  /-- The command completed. -/
  | ok
  /-- DERIVE_SCHEDULE with a length that is not 16, 24 or 32 (R221). -/
  | invalidKeyLength
  /-- ENCRYPT_BLOCKS or DECRYPT_BLOCKS with no schedule (R222). -/
  | keyNotSet
  /-- A word that decodes to no command (R223). -/
  | illegalCommand
  /-- ENCRYPT_BLOCKS or DECRYPT_BLOCKS with a range that leaves `DATA` (R224). -/
  | bufferRange
  deriving DecidableEq, Repr

/-- The code of an outcome in `STATUS.ERR` (R30). -/
def ErrorCode.code : ErrorCode → BitVec 4
  | .ok => 0
  | .invalidKeyLength => 1
  | .keyNotSet => 2
  | .illegalCommand => 3
  | .bufferRange => 4

/-- `raise E` (R14, R220), the core's one way of taking an exception: `STATUS.ERR` gets the code, nothing is saved, no
mode changes and no handler runs (R231). There is no return from it (R232). -/
def CoreState.raise (e : ErrorCode) (c : CoreState) : CoreState := { c with err := e.code }

/-- `ERR <- 0`: a command that completes reports OK (R30). -/
def CoreState.succeed (c : CoreState) : CoreState := { c with err := ErrorCode.ok.code }

/-- `SK[i] <- 0`, `VARIANT <- 0`, `KEYj <- 0` for every i and j: what CLEAR (R201) and a failing DERIVE_SCHEDULE (R149)
do to the key material. -/
def CoreState.eraseKeys (c : CoreState) : CoreState :=
  { c with sk := Vector.replicate 34 0, variant := 0, key := Vector.replicate 8 0 }

/-! ### The register map (R70) -/

/-- A register of the block, or a reserved offset. -/
inductive Reg where
  | cmd
  | status
  | keylen
  | nblk
  | src
  | dst
  | key (j : Fin 8)
  | reserved
  deriving DecidableEq, Repr

/-- The register at an offset of the block (R70). -/
def Reg.ofOffset (off : Nat) : Reg :=
  if off = 0x000 then .cmd
  else if off = 0x004 then .status
  else if off = 0x008 then .keylen
  else if off = 0x00C then .nblk
  else if off = 0x010 then .src
  else if off = 0x014 then .dst
  else if h : 0x020 ≤ off ∧ off < 0x040 then .key ⟨(off - 0x020) / 4, by omega⟩
  else .reserved

/-- The store of a register write (R202). A write to `STATUS` or to a reserved offset is ignored; `CMD` stores nothing
(R26): its command is executed by `hostRequest`. -/
def CoreState.writeReg (c : CoreState) (r : Reg) (v : Word) : CoreState :=
  match r with
  | .cmd => c
  | .status => c
  | .keylen => { c with keylen := v }
  | .nblk => { c with nblk := v }
  | .src => { c with src := v }
  | .dst => { c with dst := v }
  | .key j => { c with key := c.key.set j.val v }
  | .reserved => c

/-! ### Host access widths (R58) -/

/-- The contract of a register access: one 32-bit word at a multiple of 4 below 0x100 (R58). -/
def regAccessOk (off width : Nat) : Bool :=
  width == Config.regBytes && off % 4 == 0 && decide (off < Config.regBlockBytes)

/-- The contract of a data access: one byte at an address below `BUF_BYTES` (R58). -/
def dataAccessOk (bufBytes addr width : Nat) : Bool :=
  width == 1 && decide (addr < bufBytes)

/-! ### The copies of the platform (R40, R236) -/

/-- All copies of the core, in the order of their indexes. -/
def State.copies (s : State) : List CoreState := s.before ++ s.core :: s.after

/-- The index of the copy in front. -/
def State.index (s : State) : Nat := s.before.length

/-- The same platform seen from the copy of index `k`; `none` where there is no such copy. -/
def State.focus (s : State) (k : Nat) : Option State :=
  match s.copies.drop k with
  | [] => none
  | c :: rest => some { s with before := s.copies.take k, core := c, after := rest }

/-- The state with the copy in front replaced. -/
def State.withCore (s : State) (c : CoreState) : State := { s with core := c }

/-- The state with one more value recorded by the host (R76). -/
def State.record (s : State) (r : Reading) : State := { s with observed := r :: s.observed }

/-- A command's outcome on the copy in front, as an outcome of the whole state. -/
def State.commit (s : State) : Except Fault CoreState → Host.Outcome State Fault Refusal
  | .ok c => .next (s.withCore c)
  | .error f => .fault f

end Sys2Proof.Machine
end

