-- ==== Sys2Proof/Machine/Operands.lean ====
section
/-!
DEFINITION. Machine/Operands.lean: how a command's operands are assembled from the registers (R74). They are read at
the moment of the `CMD` write (R68).
-/

namespace Sys2Proof.Machine

/-- Key byte i: `KEY(i div 4)[31 - 8*(i mod 4) : 24 - 8*(i mod 4)]` (R25, R74). -/
def keyByte (key : Vector Word 8) (i : Fin 32) : Byte :=
  byteOfWord ⟨i.val % 4, by omega⟩ (key[i.val / 4]'(by omega))

/-- `be64(k[8j .. 8j+7])`: the j-th 64 bits of the key (R54). -/
def keyDWord (key : Vector Word 8) (j : Fin 4) : DWord :=
  be64 fun i => keyByte key ⟨8 * j.val + i.val, by omega⟩

/-- `KEYLEN` as an unsigned number (R74, R21). -/
def CoreState.keyLength (c : CoreState) : Nat := c.keylen.toNat

/-- The block count N, `NBLK` as a natural (R74). -/
def CoreState.blockCount (c : CoreState) : Nat := c.nblk.toNat

/-- The source address, `SRC` zero-extended to a natural (R74). -/
def CoreState.srcAddr (c : CoreState) : Nat := c.src.toNat

/-- The destination address, `DST` zero-extended to a natural (R74). -/
def CoreState.dstAddr (c : CoreState) : Nat := c.dst.toNat

/-- The number of bytes a transform reads and writes, `16*N` (R51). -/
def CoreState.byteCount (c : CoreState) : Nat := Config.blockBytes * c.blockCount

/-- The bounds check of a transform, on naturals without wrap-around: for N > 0 the input range and the output range lie
inside `DATA` (R179). -/
def CoreState.inRange (c : CoreState) : Bool :=
  decide (c.blockCount = 0) ||
    (decide (c.srcAddr + c.byteCount ≤ c.bufBytes) && decide (c.dstAddr + c.byteCount ≤ c.bufBytes))

end Sys2Proof.Machine
end

