-- ==== Sys2Proof/Machine/Flags.lean ====
section
/-!
DEFINITION. Machine/Flags.lean: the fields of `STATUS`, what follows from `VARIANT` (R27 to R32), and register reads
(R203).
-/

namespace Sys2Proof.Machine

/-- The key-length classes, the variants that have a schedule (R29). -/
inductive KeyClass where
  /-- A 16-byte key. -/
  | k128
  /-- A 24-byte key. -/
  | k192
  /-- A 32-byte key. -/
  | k256
  deriving DecidableEq, Repr

/-- The key length of a class in bytes (R7). -/
def KeyClass.keyBytes : KeyClass → Nat
  | .k128 => 16
  | .k192 => 24
  | .k256 => 32

/-- The class of a key length in bytes; `none` for a length that is not accepted (R7, R21). -/
def KeyClass.ofLength (len : Nat) : Option KeyClass :=
  if len = 16 then some .k128
  else if len = 24 then some .k192
  else if len = 32 then some .k256
  else none

/-- The class that a value of `VARIANT` stands for; `none` is 0, no schedule (R29). -/
def KeyClass.ofVariant (v : BitVec 2) : Option KeyClass :=
  if v = 1 then some .k128
  else if v = 2 then some .k192
  else if v = 3 then some .k256
  else none

/-- The value of `VARIANT` of a class (R29). -/
def KeyClass.variant : KeyClass → BitVec 2
  | .k128 => 1
  | .k192 => 2
  | .k256 => 3

/-- `NSK`, the number of subkeys (R7, R32). -/
def KeyClass.nsk : KeyClass → Nat
  | .k128 => 26
  | .k192 => 34
  | .k256 => 34

/-- `ROUNDS`, the number of round pairs (R7, R32, R170). -/
def KeyClass.rounds : KeyClass → Nat
  | .k128 => 9
  | .k192 => 12
  | .k256 => 12

/-- `NSK` as a function of `VARIANT`, 0 without a schedule (R32). -/
def nskOf (v : BitVec 2) : Nat :=
  match KeyClass.ofVariant v with
  | some k => k.nsk
  | none => 0

/-- `STATUS.KEY_SET`: 1 exactly when a schedule is established (R28, R29). -/
def CoreState.keySet (c : CoreState) : BitVec 1 := if c.variant = 0 then 0 else 1

/-- `STATUS.BUSY`: 0 in every state a host access can see, since commands are atomic (R31). -/
def CoreState.busy (_ : CoreState) : BitVec 1 := 0

/-- The value of `STATUS` (R27): BUSY at bit 8, ERR at 7:4, VARIANT at 2:1, KEY_SET at 0, every other bit 0. -/
def CoreState.status (c : CoreState) : Word :=
  (0 : BitVec 23) ++ c.busy ++ c.err ++ (0 : BitVec 1) ++ c.variant ++ c.keySet

/-- The value of a register read (R203): `CMD`, the key buffer and reserved offsets read 0. -/
def CoreState.readReg (c : CoreState) (r : Reg) : Word :=
  match r with
  | .cmd => 0
  | .status => c.status
  | .keylen => c.keylen
  | .nblk => c.nblk
  | .src => c.src
  | .dst => c.dst
  | .key _ => 0
  | .reserved => 0

end Sys2Proof.Machine
end

