-- ==== Sys2Proof/Machine/Tables.lean ====
section
/-!
DEFINITION. Machine/Tables.lean: the substitution tables S1..S4, the lane masks and the key-schedule constants (R100 to
R108, R140). They are constants of the core, the same for every copy (R34, R105). The spec supplies the values of S1, of
the masks and of Sigma1..Sigma6 from general knowledge (K3, K4, K6; assumption log entry 9).
-/

namespace Sys2Proof.Machine

/-- Table 1 (R100), row `hi` as one number of 16 bytes, column 0 the most significant byte. -/
def s1Row (hi : BitVec 4) : BitVec 128 :=
  match hi.toNat with
  | 0x0 => 0x70822CECB327C0E5E4855735EA0CAE41
  | 0x1 => 0x23EF6B934519A521ED0E4F4E1D6592BD
  | 0x2 => 0x86B8AF8F7CEB1FCE3E30DC5F5EC50B1A
  | 0x3 => 0xA6E139CAD5475D3DD9015AD651566C4D
  | 0x4 => 0x8B0D9A66FBCCB02D74122B20F0B18499
  | 0x5 => 0xDF4CCBC2347E76056DB7A931D11704D7
  | 0x6 => 0x14583A61DE1B111C320F9C165318F222
  | 0x7 => 0xFE44CFB2C3B57A912408E8A860FC6950
  | 0x8 => 0xAAD0A07DA1896297545B1E95E0FF64D2
  | 0x9 => 0x10C40048A3F775DB8A03E6DA093FDD94
  | 0xA => 0x875C8302CD4A90337367F6F39D7FBFE2
  | 0xB => 0x529BD826C837C63B81966F4B13BE632E
  | 0xC => 0xE979A78C9F6EBC8E29F5F9B62FFDB459
  | 0xD => 0x7898066AE74671BAD425AB4288A28DFA
  | 0xE => 0x7207B955F8EEAC0A36492A683C38F1A4
  | _ => 0x4028D37BBBC943C115E3ADF477C7809E

/-- `S1[x]`: row `x[7:4]`, column `x[3:0]` of Table 1 (R100). -/
def sbox1 (x : Byte) : Byte :=
  (s1Row (x.extractLsb' 4 4)).extractLsb' (120 - 8 * (x.extractLsb' 0 4).toNat) 8

/-- `S2[x] = rol_8(S1[x], 1)` (R101). -/
def sbox2 (x : Byte) : Byte := rol (sbox1 x) 1

/-- `S3[x] = rol_8(S1[x], 7)` (R102). -/
def sbox3 (x : Byte) : Byte := rol (sbox1 x) 7

/-- `S4[x] = S1[rol_8(x, 1)]` (R103). -/
def sbox4 (x : Byte) : Byte := sbox1 (rol x 1)

/-- The table of a lane (R107). -/
def tab : Fin 8 → Byte → Byte
  | 0 => sbox1
  | 1 => sbox2
  | 2 => sbox3
  | 3 => sbox4
  | 4 => sbox2
  | 5 => sbox3
  | 6 => sbox4
  | 7 => sbox1

/-- The lane masks `M_0 .. M_7` (R108). -/
def laneMask : Fin 8 → DWord
  | 0 => 0x0101010001000001
  | 1 => 0x0001010101010000
  | 2 => 0x0100010100010100
  | 3 => 0x0101000100000101
  | 4 => 0x0001010100010101
  | 5 => 0x0100010101000101
  | 6 => 0x0101000101010001
  | 7 => 0x0101010001010100

/-- Sigma1 (R140). -/
def sigma1 : DWord := 0xA09E667F3BCC908B

/-- Sigma2 (R140). -/
def sigma2 : DWord := 0xB67AE8584CAA73B2

/-- Sigma3 (R140). -/
def sigma3 : DWord := 0xC6EF372FE94F82BE

/-- Sigma4 (R140). -/
def sigma4 : DWord := 0x54FF53A5F1D36F1C

/-- Sigma5 (R140). -/
def sigma5 : DWord := 0x10E527FADE682D1D

/-- Sigma6 (R140). -/
def sigma6 : DWord := 0xB05688C2B3E6C1FD

end Sys2Proof.Machine
end

