-- ==== Sys2Proof/Machine/Round.lean ====
section
/-!
DEFINITION. Machine/Round.lean: the round function F (R106 to R113) and the keyed linear layer FL and FLINV (R130 to
R134), the internal operations of the core. All are total and write no flag.
-/

namespace Sys2Proof.Machine

/-- One product of F: `M_i * zext_64(s_i)` with `s_i = tab(i)[byte(i, x)]`, modulo 2^64 (R109, R12). -/
def laneProduct (i : Fin 8) (x : DWord) : DWord :=
  laneMask i * (tab i (byteOf i x)).setWidth 64

/-- F on `x = v xor k`: the XOR of the eight products (R109). -/
def mixLanes (x : DWord) : DWord :=
  laneProduct 0 x ^^^ laneProduct 1 x ^^^ laneProduct 2 x ^^^ laneProduct 3 x ^^^
  laneProduct 4 x ^^^ laneProduct 5 x ^^^ laneProduct 6 x ^^^ laneProduct 7 x

/-- `F(v, k)`, the round function (R109). -/
def roundF (v k : DWord) : DWord := mixLanes (v ^^^ k)

/-- `T_i[x] = M_i * zext_64(tab(i)[x])`, the derived 64-bit tables of the table-driven form of F (R112). -/
def ttable (i : Fin 8) (x : Byte) : DWord := laneMask i * (tab i x).setWidth 64

/-- `FL(v, K)` (R131): the second step uses the new `x2`. -/
def fl (v k : DWord) : DWord :=
  let x2 := lo32 v ^^^ rol (hi32 v &&& hi32 k) 1
  let x1 := hi32 v ^^^ (x2 ||| lo32 k)
  x1 ++ x2

/-- `FLINV(v, K)` (R132): FL's steps in reverse order, the second using the new `x1`. -/
def flinv (v k : DWord) : DWord :=
  let x1 := hi32 v ^^^ (lo32 v ||| lo32 k)
  let x2 := lo32 v ^^^ rol (x1 &&& hi32 k) 1
  x1 ++ x2

end Sys2Proof.Machine
end

