-- ==== Sys2Proof/Machine/KeySchedule.lean ====
section
/-!
DEFINITION. Machine/KeySchedule.lean: the key schedule expander and the command DERIVE_SCHEDULE (R140 to R151). The rows
of the two subkey tables stand as R147 and R148 list them (K7, K8; assumption log entry 9).
-/

namespace Sys2Proof.Machine

/-- A 128-bit value as the pair (H, L) of its 64-bit halves (R11, R145). -/
structure Pair where
  h : DWord
  l : DWord
  deriving DecidableEq, Repr

/-- The four 128-bit secrets of one derivation (R141 to R144), the working registers KL, KR, KA, KB of R35. -/
structure Secrets where
  kl : Pair
  kr : Pair
  ka : Pair
  kb : Pair
  deriving DecidableEq, Repr

/-- KL: the first 128 bits of the key (R141). -/
def loadKL (key : Vector Word 8) : Pair := ⟨keyDWord key 0, keyDWord key 1⟩

/-- KR by key length: 0; the next 64 bits and their complement; the remaining 128 bits (R142). -/
def loadKR (k : KeyClass) (key : Vector Word 8) : Pair :=
  match k with
  | .k128 => ⟨0, 0⟩
  | .k192 => ⟨keyDWord key 2, ~~~ keyDWord key 2⟩
  | .k256 => ⟨keyDWord key 2, keyDWord key 3⟩

/-- KA (R143). -/
def deriveKA (kl kr : Pair) : Pair :=
  let d1 := kl.h ^^^ kr.h
  let d2 := kl.l ^^^ kr.l
  let d2 := d2 ^^^ roundF d1 sigma1
  let d1 := d1 ^^^ roundF d2 sigma2
  let d1 := d1 ^^^ kl.h
  let d2 := d2 ^^^ kl.l
  let d2 := d2 ^^^ roundF d1 sigma3
  let d1 := d1 ^^^ roundF d2 sigma4
  ⟨d1, d2⟩

/-- KB (R144). -/
def deriveKB (ka kr : Pair) : Pair :=
  let d1 := ka.h ^^^ kr.h
  let d2 := ka.l ^^^ kr.l
  let d2 := d2 ^^^ roundF d1 sigma5
  let d1 := d1 ^^^ roundF d2 sigma6
  ⟨d1, d2⟩

/-- The four secrets of a key of class `k`; KB is computed for every class (R144). -/
def secretsOf (k : KeyClass) (key : Vector Word 8) : Secrets :=
  let kl := loadKL key
  let kr := loadKR k key
  let ka := deriveKA kl kr
  ⟨kl, kr, ka, deriveKB ka kr⟩

/-- `ROT128(X, s) = rol_128(X_H ‖ X_L, s)` (R145). -/
def rot128 (x : Pair) (s : Nat) : BitVec 128 := rol (x.h ++ x.l) s

/-- Which secret a row of a subkey table rotates (R147, R148). -/
inductive Source where
  | kl
  | kr
  | ka
  | kb
  deriving DecidableEq, Repr

/-- Which half of the rotated value a row takes (R147, R148). -/
inductive Half where
  /-- Bits 127:64. -/
  | h
  /-- Bits 63:0. -/
  | l
  deriving DecidableEq, Repr

/-- A row of a subkey table: (source, shift, half). -/
structure SubkeyRow where
  source : Source
  shift : Nat
  half : Half
  deriving DecidableEq, Repr

/-- The secret a row names. -/
def Secrets.get (s : Secrets) : Source → Pair
  | .kl => s.kl
  | .kr => s.kr
  | .ka => s.ka
  | .kb => s.kb

/-- `ROT128_H` and `ROT128_L` (R145). -/
def rot128Half (x : Pair) (s : Nat) : Half → DWord
  | .h => (rot128 x s).extractLsb' 64 64
  | .l => (rot128 x s).extractLsb' 0 64

/-- The subkey of a row: `ROT128_half(source, shift)` (R147). -/
def Secrets.subkey (s : Secrets) (r : SubkeyRow) : DWord := rot128Half (s.get r.source) r.shift r.half

/-- The subkey table of a 16-byte key, rows 0 to 25 (R147). -/
def subkeyTable128 : List SubkeyRow :=
  [⟨.kl, 0, .h⟩, ⟨.kl, 0, .l⟩, ⟨.ka, 0, .h⟩, ⟨.ka, 0, .l⟩]
  ++ [⟨.kl, 15, .h⟩, ⟨.kl, 15, .l⟩, ⟨.ka, 15, .h⟩, ⟨.ka, 15, .l⟩]
  ++ [⟨.ka, 30, .h⟩, ⟨.ka, 30, .l⟩, ⟨.kl, 45, .h⟩, ⟨.kl, 45, .l⟩]
  ++ [⟨.ka, 45, .h⟩, ⟨.kl, 60, .l⟩, ⟨.ka, 60, .h⟩, ⟨.ka, 60, .l⟩]
  ++ [⟨.kl, 77, .h⟩, ⟨.kl, 77, .l⟩, ⟨.kl, 94, .h⟩, ⟨.kl, 94, .l⟩]
  ++ [⟨.ka, 94, .h⟩, ⟨.ka, 94, .l⟩, ⟨.kl, 111, .h⟩, ⟨.kl, 111, .l⟩]
  ++ [⟨.ka, 111, .h⟩, ⟨.ka, 111, .l⟩]

/-- The subkey table of a 24- or 32-byte key, rows 0 to 33 (R148). -/
def subkeyTable256 : List SubkeyRow :=
  [⟨.kl, 0, .h⟩, ⟨.kl, 0, .l⟩, ⟨.kb, 0, .h⟩, ⟨.kb, 0, .l⟩]
  ++ [⟨.kr, 15, .h⟩, ⟨.kr, 15, .l⟩, ⟨.ka, 15, .h⟩, ⟨.ka, 15, .l⟩]
  ++ [⟨.kr, 30, .h⟩, ⟨.kr, 30, .l⟩, ⟨.kb, 30, .h⟩, ⟨.kb, 30, .l⟩]
  ++ [⟨.kl, 45, .h⟩, ⟨.kl, 45, .l⟩, ⟨.ka, 45, .h⟩, ⟨.ka, 45, .l⟩]
  ++ [⟨.kl, 60, .h⟩, ⟨.kl, 60, .l⟩, ⟨.kr, 60, .h⟩, ⟨.kr, 60, .l⟩]
  ++ [⟨.kb, 60, .h⟩, ⟨.kb, 60, .l⟩, ⟨.kl, 77, .h⟩, ⟨.kl, 77, .l⟩]
  ++ [⟨.ka, 77, .h⟩, ⟨.ka, 77, .l⟩, ⟨.kr, 94, .h⟩, ⟨.kr, 94, .l⟩]
  ++ [⟨.ka, 94, .h⟩, ⟨.ka, 94, .l⟩, ⟨.kl, 111, .h⟩, ⟨.kl, 111, .l⟩]
  ++ [⟨.kb, 111, .h⟩, ⟨.kb, 111, .l⟩]

/-- The subkey table of a class (R149). -/
def subkeyTable : KeyClass → List SubkeyRow
  | .k128 => subkeyTable128
  | .k192 => subkeyTable256
  | .k256 => subkeyTable256

/-- The whole subkey file after a derivation: the rows of the table, then 0 (R149, R33). -/
def subkeyFile (k : KeyClass) (s : Secrets) : Vector DWord 34 :=
  Vector.ofFn fun i : Fin 34 =>
    match (subkeyTable k)[i.val]? with
    | some r => s.subkey r
    | none => 0

/-- DERIVE_SCHEDULE on one copy (R149). -/
def CoreState.deriveSchedule (c : CoreState) : CoreState :=
  match KeyClass.ofLength c.keyLength with
  | none => c.eraseKeys.raise .invalidKeyLength
  | some k =>
    CoreState.succeed
      { c with
        sk := subkeyFile k (secretsOf k c.key)
        variant := k.variant
        key := Vector.replicate 8 0 }

/-- DERIVE_SCHEDULE (R149). -/
def execDeriveSchedule (s : State) : Host.Outcome State Fault Refusal :=
  .next (s.withCore s.core.deriveSchedule)

end Sys2Proof.Machine
end

