-- ==== Sys2Proof/Machine/BlockDriver.lean ====
section
/-!
DEFINITION. Machine/BlockDriver.lean: the Feistel block driver and the commands ENCRYPT_BLOCKS and DECRYPT_BLOCKS (R170
to R182).
-/

namespace Sys2Proof.Machine

/-- The working registers of one block: the data halves and the subkey cursor (R35). -/
structure Work where
  d1 : DWord
  d2 : DWord
  c : Nat
  deriving DecidableEq, Repr

/-- `SK[c]` (R33). The driver's cursor stays below 34 (R171, R173). -/
def subkeyAt (sk : Vector DWord 34) (c : Nat) : DWord := sk.getD c 0

/-- One Feistel pair: `D2 ^= F(D1, ka)`, then `D1 ^= F(D2, kb)` with the new D2 (R171). -/
def Work.feistel (w : Work) (ka kb : DWord) : Work :=
  let d2 := w.d2 ^^^ roundF w.d1 ka
  { w with d1 := w.d1 ^^^ roundF d2 kb, d2 := d2 }

/-- One FL layer: `D1 = FL(D1, ka)`, `D2 = FLINV(D2, kb)` (R134, R171). -/
def Work.flLayer (w : Work) (ka kb : DWord) : Work :=
  { w with d1 := fl w.d1 ka, d2 := flinv w.d2 kb }

/-- Whitening: `D1 ^= k1`, `D2 ^= k2` (R171). -/
def Work.whiten (w : Work) (k1 k2 : DWord) : Work :=
  { w with d1 := w.d1 ^^^ k1, d2 := w.d2 ^^^ k2 }

/-- The cursor two subkeys further on (R171). -/
def Work.up (w : Work) : Work := { w with c := w.c + 2 }

/-- The cursor two subkeys further down (R173). -/
def Work.down (w : Work) : Work := { w with c := w.c - 2 }

/-- The halves loaded from a block, the cursor at `c` (R52, R171). -/
def Work.load (blk : Block) (c : Nat) : Work := ⟨blk.hi, blk.lo, c⟩

/-- The block stored from the halves, D2 then D1 (R53). -/
def Work.store (w : Work) : Block := Block.ofWords w.d2 w.d1

/-- The round indexes of the loop, 1 .. ROUNDS-2 (R171). -/
def loopRounds (k : KeyClass) : List Nat := List.range' 1 (k.rounds - 2)

/-- A Feistel pair of the encryption, at the cursor (R171). -/
def encPair (sk : Vector DWord 34) (w : Work) : Work :=
  (w.feistel (subkeyAt sk w.c) (subkeyAt sk (w.c + 1))).up

/-- The FL layer of the encryption, at the cursor (R171). -/
def encFL (sk : Vector DWord 34) (w : Work) : Work :=
  (w.flLayer (subkeyAt sk w.c) (subkeyAt sk (w.c + 1))).up

/-- The loop body of the encryption: the FL layer where `r mod 3 = 0`, then always a pair (R171). -/
def encRound (sk : Vector DWord 34) (w : Work) (r : Nat) : Work :=
  encPair sk (if r % 3 = 0 then encFL sk w else w)

/-- EncBlock (R171). -/
def encBlock (sk : Vector DWord 34) (k : KeyClass) (blk : Block) : Block :=
  let w := Work.load blk 0
  let w := (w.whiten (subkeyAt sk w.c) (subkeyAt sk (w.c + 1))).up
  let w := encPair sk w
  let w := (loopRounds k).foldl (encRound sk) w
  let w := encPair sk w
  let w := (w.whiten (subkeyAt sk (w.c + 1)) (subkeyAt sk w.c)).up
  w.store

/-- A Feistel pair of the decryption, at the cursor (R173). -/
def decPair (sk : Vector DWord 34) (w : Work) : Work :=
  (w.feistel (subkeyAt sk w.c) (subkeyAt sk (w.c - 1))).down

/-- The FL layer of the decryption, at the cursor (R173). -/
def decFL (sk : Vector DWord 34) (w : Work) : Work :=
  (w.flLayer (subkeyAt sk w.c) (subkeyAt sk (w.c - 1))).down

/-- The loop body of the decryption (R173). -/
def decRound (sk : Vector DWord 34) (w : Work) (r : Nat) : Work :=
  decPair sk (if r % 3 = 0 then decFL sk w else w)

/-- DecBlock (R173): the cursor starts at `NSK - 1` and moves down; the whitenings are mirrored. -/
def decBlock (sk : Vector DWord 34) (k : KeyClass) (blk : Block) : Block :=
  let w := Work.load blk (k.nsk - 1)
  let w := (w.whiten (subkeyAt sk (w.c - 1)) (subkeyAt sk w.c)).down
  let w := decPair sk w
  let w := (loopRounds k).foldl (decRound sk) w
  let w := decPair sk w
  let w := (w.whiten (subkeyAt sk w.c) (subkeyAt sk (w.c - 1))).down
  w.store

/-- The block loop: `n` blocks from `src` to `dst` in ascending order, each block's 16 input bytes read before its 16
output bytes are written, and written before the next block is read (R178, R62). -/
def transformBlocks (f : Block → Block) : Nat → Nat → Nat → Memory → Except Fault Memory
  | 0, _, _, m => .ok m
  | n + 1, src, dst, m =>
    match Memory.readBlock m src with
    | .error e => .error e
    | .ok blk =>
      transformBlocks f n (src + Config.blockBytes) (dst + Config.blockBytes) (Memory.writeBlock m dst (f blk))

/-- A transform command on one copy, with the per-block function of the schedule (R176, R177): KeyNotSet is checked
first, then BufferRange (R227), both before any access to `DATA` (R225). -/
def CoreState.transform (f : Vector DWord 34 → KeyClass → Block → Block) (c : CoreState) : Except Fault CoreState :=
  match KeyClass.ofVariant c.variant with
  | none => .ok (c.raise .keyNotSet)
  | some k =>
    if c.inRange then
      match transformBlocks (f c.sk k) c.blockCount c.srcAddr c.dstAddr c.data with
      | .ok m => .ok (CoreState.succeed { c with data := m })
      | .error e => .error e
    else .ok (c.raise .bufferRange)

/-- ENCRYPT_BLOCKS (R176). -/
def execEncryptBlocks (s : State) : Host.Outcome State Fault Refusal :=
  s.commit (s.core.transform encBlock)

/-- DECRYPT_BLOCKS (R177). -/
def execDecryptBlocks (s : State) : Host.Outcome State Fault Refusal :=
  s.commit (s.core.transform decBlock)

end Sys2Proof.Machine
end

