-- ==== Sys2Proof/Machine/Control.lean ====
section
/-!
DEFINITION. Machine/Control.lean: NOP, CLEAR and the outcome of an illegal command word (R200, R201, R205).
-/

namespace Sys2Proof.Machine

/-- NOP (R200): `ERR <- 0` and nothing else. -/
def execNop (s : State) : Host.Outcome State Fault Refusal :=
  .next (s.withCore s.core.succeed)

/-- CLEAR (R201): the key material zeroed, `ERR <- 0`. -/
def execClear (s : State) : Host.Outcome State Fault Refusal :=
  .next (s.withCore s.core.eraseKeys.succeed)

/-- The outcome of a word that decodes to no command (R205): `raise IllegalCommand`. -/
def execIllegal (s : State) : Host.Outcome State Fault Refusal :=
  .next (s.withCore (s.core.raise .illegalCommand))

end Sys2Proof.Machine
end

