-- ==== Sys2Proof/Machine/Dispatch.lean ====
section
/-!
DEFINITION. Machine/Dispatch.lean: one arm per command, each one call of its meaning.
-/

namespace Sys2Proof.Machine

/-- What a command does to the copy in front of the state (R72). -/
def exec (i : Instr) (s : State) : Host.Outcome State Fault Refusal :=
  match i with
  | .nop => Sys2Proof.Machine.execNop s
  | .deriveSchedule => Sys2Proof.Machine.execDeriveSchedule s
  | .encryptBlocks => Sys2Proof.Machine.execEncryptBlocks s
  | .decryptBlocks => Sys2Proof.Machine.execDecryptBlocks s
  | .clear => Sys2Proof.Machine.execClear s

end Sys2Proof.Machine
end

