-- ==== Sys2Proof/Machine/Access.lean ====
section
/-!
DEFINITION. Machine/Access.lean: what each host access and a reset do (R200 to R206, R260), among them the `CMD` write
that decodes and executes a command (R26, R73).
-/

namespace Sys2Proof.Machine

/-- A write of the word `w` to `CMD`: decode it and execute the command at once (R26, R73); a word that decodes to none
has the IllegalCommand outcome (R205). -/
def runCommand (w : Word) (s : State) : Host.Outcome State Fault Refusal :=
  match decode w with
  | .ok i => exec i s
  | .error _ => execIllegal s

/-- A register write (R202; R26 for `CMD`); refused outside the contract (R58, R206). -/
def hostRegWrite (off width : Nat) (v : Word) (s : State) : Host.Outcome State Fault Refusal :=
  if regAccessOk off width then
    match Reg.ofOffset off with
    | .cmd => runCommand v s
    | r => .next (s.withCore (s.core.writeReg r v))
  else .refused .hostAccessRefused

/-- A register read (R203): the value goes to the host, the copy is unchanged. -/
def hostRegRead (off width : Nat) (s : State) : Host.Outcome State Fault Refusal :=
  if regAccessOk off width then
    .next (s.record (.reg s.index off (s.core.readReg (Reg.ofOffset off))))
  else .refused .hostAccessRefused

/-- A data byte write (R204): it stores one byte and nothing else (R60). -/
def hostDataWrite (a width : Nat) (b : Byte) (s : State) : Host.Outcome State Fault Refusal :=
  if dataAccessOk s.core.bufBytes a width then
    .next (s.withCore { s.core with data := Memory.write s.core.data a b })
  else .refused .hostAccessRefused

/-- A data byte read (R204): a fault where the byte is unwritten (R57). -/
def hostDataRead (a width : Nat) (s : State) : Host.Outcome State Fault Refusal :=
  if dataAccessOk s.core.bufBytes a width then
    match Memory.read s.core.data a with
    | some b => .next (s.record (.data s.index a b))
    | none => .fault (.unwrittenData a)
  else .refused .hostAccessRefused

/-- Reset of the copy in front (R260); the size of its buffer is no register and stays. -/
def resetCopy (s : State) : Host.Outcome State Fault Refusal :=
  .next (s.withCore (CoreState.reset s.core.bufBytes))

/-- What a request does to the copy it addresses, which stands in front. -/
def hostOp (op : HostOp) (s : State) : Host.Outcome State Fault Refusal :=
  match op with
  | .regWrite off width v => hostRegWrite off width v s
  | .regRead off width => hostRegRead off width s
  | .dataWrite a width b => hostDataWrite a width b s
  | .dataRead a width => hostDataRead a width s
  | .reset => resetCopy s

/-- One request: the addressed copy is brought in front and the operation performed on it (R40); refused where there is
no such copy. -/
def hostRequest (r : Request) (s : State) : Host.Outcome State Fault Refusal :=
  match s.focus r.copy with
  | some t => hostOp r.op t
  | none => .refused (.noSuchCopy r.copy)

/-- One step of the machine: the next pending request is taken off the list and performed (R65); with none pending
nothing happens (R20, R239; assumption log entry 4). -/
def nextRequest (s : State) : Host.Outcome State Fault Refusal :=
  match s.pending with
  | [] => .next s
  | r :: rest => hostRequest r { s with pending := rest }

/-- The register write that a command word of an opcode-table row comes in: `CMD` is at offset 0 (R70, R71). -/
def commandRequest (copy nbits w : Nat) : Request :=
  ⟨copy, .regWrite 0x000 Config.regBytes (BitVec.ofNat 32 (w % 2 ^ nbits))⟩

end Sys2Proof.Machine
end

