-- ==== Sys2Proof/Machine/Step.lean ====
section
/-!
DEFINITION. Machine/Step.lean: the step of the machine, one host access or reset (R31, R65).
-/

namespace Sys2Proof.Machine

/-- One step: the next pending request, or nothing. -/
def step (s : State) : Host.Outcome State Fault Refusal := nextRequest s

/-- The state whose next step is the `CMD` write of the word `w` to the copy in front, so that this step decodes and
runs exactly that word (assumption log entry 3). -/
def State.withFetchWord (s : State) (nbits w : Nat) : State :=
  { s with pending := commandRequest s.index nbits w :: s.pending }

end Sys2Proof.Machine
end

