-- ==== Sys2Proof/Machine/Script.lean ====
section
/-!
DEFINITION. Machine/Script.lean: the host script operations and pseudo-operations and the host accesses they expand to
(R76, R77). A program of the core is a list of them (assumption log entry 14).
-/

namespace Sys2Proof.Machine

/-- The register names of R70 that a script may use. -/
inductive RegName where
  | cmd
  | status
  | keylen
  | nblk
  | src
  | dst
  | key (j : Fin 8)
  deriving DecidableEq, Repr

/-- The offset of a named register (R70). -/
def RegName.offset : RegName → Nat
  | .cmd => 0x000
  | .status => 0x004
  | .keylen => 0x008
  | .nblk => 0x00C
  | .src => 0x010
  | .dst => 0x014
  | .key j => 0x020 + 4 * j.val

/-- One line of a host script (R76) or a pseudo-operation (R77). -/
inductive ScriptOp where
  /-- `wr NAME, v`. -/
  | wr (r : RegName) (v : Word)
  /-- `rd NAME`. -/
  | rd (r : RegName)
  /-- `db a, h`: write the bytes to `DATA[a], DATA[a+1], ...`. -/
  | db (a : Nat) (bytes : List Byte)
  /-- `rb a, n`: read `n` bytes from the address `a`. -/
  | rb (a n : Nat)
  /-- `nop`. -/
  | nop
  /-- `derive h`. -/
  | derive (key : List Byte)
  /-- `encrypt s, d, n`. -/
  | encrypt (s d n : Word)
  /-- `decrypt s, d, n`. -/
  | decrypt (s d n : Word)
  /-- `clear`. -/
  | clear
  deriving DecidableEq, Repr

/-- A write of a named register. -/
def wrReg (r : RegName) (v : Word) : HostOp := .regWrite r.offset Config.regBytes v

/-- The write of a command word to `CMD`. -/
def wrCmd (i : Instr) : HostOp := wrReg .cmd (encode i)

/-- One byte write per byte, at ascending addresses (R76). -/
def dbOps : Nat → List Byte → List HostOp
  | _, [] => []
  | a, b :: bs => .dataWrite a 1 b :: dbOps (a + 1) bs

/-- The `j`-th key word of a key, missing bytes of a last partial word 0 (R77). -/
def keyWordOf (key : List Byte) (j : Nat) : Word := be32 fun m => key.getD (4 * j + m.val) 0

/-- The key writes of `derive`: as many key words as the key needs, word j at offset 0x020 + 4j. From `KEY8` on they fall on
reserved offsets, and from 0x100 on outside the contract (R77). DESIGN CHOICE: R77 names "keys of 57 bytes or more" as those
that reach 0x100, but 0x020 + 4j is 0x100 only at j = 56, that is for a key of 225 bytes or more; the model follows the
offsets (assumption log entry 15). -/
def keyOps (key : List Byte) : List HostOp :=
  (List.range ((key.length + 3) / 4)).map fun j => .regWrite (0x020 + 4 * j) Config.regBytes (keyWordOf key j)

/-- The operands and the command word of a transform (R77). -/
def transformOps (i : Instr) (s d n : Word) : List HostOp :=
  [wrReg .src s, wrReg .dst d, wrReg .nblk n, wrCmd i]

/-- The host accesses that a script line stands for (R76, R77). -/
def ScriptOp.expand : ScriptOp → List HostOp
  | .wr r v => [wrReg r v]
  | .rd r => [.regRead r.offset Config.regBytes]
  | .db a bytes => dbOps a bytes
  | .rb a n => (List.range n).map fun i => .dataRead (a + i) 1
  | .nop => [wrCmd .nop]
  | .derive key => keyOps key ++ [wrReg .keylen (BitVec.ofNat 32 key.length), wrCmd .deriveSchedule]
  | .encrypt s d n => transformOps .encryptBlocks s d n
  | .decrypt s d n => transformOps .decryptBlocks s d n
  | .clear => [wrCmd .clear]

/-- The requests of a script addressed to one copy, in order. -/
def scriptRequests (copy : Nat) (script : List ScriptOp) : List Request :=
  (script.flatMap ScriptOp.expand).map fun op => ⟨copy, op⟩

/-- The state with a script for one copy appended to the requests that are still to be performed. -/
def State.withScript (s : State) (copy : Nat) (script : List ScriptOp) : State :=
  { s with pending := s.pending ++ scriptRequests copy script }

end Sys2Proof.Machine
end

