-- ==== Sys2Proof/Safety.lean ====
section
/-!
DEFINITION. Safety.lean: what claims mean by a good state and by a request that the machine accepts.
-/

namespace Sys2Proof.Machine

/-- The invariant of one copy: a buffer of at least one block (R9), `DATA` in canonical form and inside the buffer (R38),
a result code that is produced (R30, M3), and the subkey entries beyond the schedule 0 (R33). -/
abbrev CoreState.Inv (c : CoreState) : Prop :=
  16 ≤ c.bufBytes ∧
  Memory.wf c.data ∧
  (∀ p ∈ c.data, p.1 < c.bufBytes) ∧
  c.err.toNat ≤ 4 ∧
  (∀ i : Fin 34, nskOf c.variant ≤ i.val → c.sk[i.val] = 0)

/-- The invariant of the platform: that of every copy. -/
abbrev State.Inv (s : State) : Prop := ∀ c ∈ s.copies, c.Inv

/-- Every input byte of a transform with the copy's operands is written (R176, R57). -/
abbrev CoreState.InputWritten (c : CoreState) : Prop :=
  ∀ i < c.byteCount, (Memory.read c.data (c.srcAddr + i)).isSome

/-- Of the input range at `src`, byte `i`, which belongs to block `i / 16`, holds a value when that block is read: `m` holds
it from before, or an earlier block writes it to the output range at `dst` (R62, R178). -/
abbrev Memory.ReadyAt (m : Memory) (src dst i : Nat) : Prop :=
  (Memory.read m (src + i)).isSome ∨ (dst ≤ src + i ∧ src + i < dst + 16 * (i / 16))

/-- Byte `i` of the input range of a transform with the copy's operands holds a value when its block is read. -/
abbrev CoreState.InputByteReady (c : CoreState) (i : Nat) : Prop := Memory.ReadyAt c.data c.srcAddr c.dstAddr i

/-- Every input byte of a transform with the copy's operands holds a value when its block is read (R57, R62, R178). -/
abbrev CoreState.InputReady (c : CoreState) : Prop := ∀ i < c.byteCount, c.InputByteReady i

/-- A transform with the copy's operands runs its blocks: a schedule is set and the ranges lie inside `DATA` (R176). -/
abbrev CoreState.TransformRuns (c : CoreState) : Prop := c.variant ≠ 0 ∧ c.inRange = true

/-- On the halves (D1, D2): `D2 ^= F(D1, a)`, then `D1 ^= F(D2, b)`, as the unrolled tables write it (R172, R174). -/
def pairStep (x : DWord × DWord) (a b : DWord) : DWord × DWord :=
  (x.1 ^^^ roundF (x.2 ^^^ roundF x.1 a) b, x.2 ^^^ roundF x.1 a)

/-- On the halves (D1, D2): `D1 = FL(D1, a)`, `D2 = FLINV(D2, b)` (R172, R174). -/
def layerStep (x : DWord × DWord) (a b : DWord) : DWord × DWord := (fl x.1 a, flinv x.2 b)

/-- The command `i` is a transform, with the per-block function `f` (R176, R177). -/
def TransformCommand (i : Instr) (f : Vector DWord 34 → KeyClass → Block → Block) : Prop :=
  (i = .encryptBlocks ∧ f = encBlock) ∨ (i = .decryptBlocks ∧ f = decBlock)

/-- The address lies in the output range of a transform with the copy's operands (R51). -/
abbrev CoreState.InOutput (c : CoreState) (a : Nat) : Prop := c.dstAddr ≤ a ∧ a < c.dstAddr + c.byteCount

/-- The input and output ranges of a transform are the same or do not meet (R62). -/
abbrev CoreState.InPlaceOrDisjoint (c : CoreState) : Prop :=
  c.srcAddr = c.dstAddr ∨ c.srcAddr + c.byteCount ≤ c.dstAddr ∨ c.dstAddr + c.byteCount ≤ c.srcAddr

/-- The copy with its key material blanked out: what is left is what the host may learn (R64, R234). -/
def CoreState.hideKeys (c : CoreState) : CoreState :=
  { c with key := Vector.replicate 8 0, sk := Vector.replicate 34 0 }

/-- The platform with the key material of every copy blanked out. -/
def State.hideKeys (s : State) : State :=
  { s with core := s.core.hideKeys, before := s.before.map CoreState.hideKeys, after := s.after.map CoreState.hideKeys }

/-- The next pending request is `op` on the copy of index `k`, and `t` is the state that performs it: the request taken off
the list and that copy brought in front (R40, R65). -/
def State.NextIs (s : State) (k : Nat) (op : HostOp) (t : State) : Prop :=
  ∃ rest, s.pending = ⟨k, op⟩ :: rest ∧ State.focus { s with pending := rest } k = some t

/-- The access is inside the contract of R58; a reset always is. -/
def HostOp.inContract (bufBytes : Nat) : HostOp → Bool
  | .regWrite off width _ => regAccessOk off width
  | .regRead off width => regAccessOk off width
  | .dataWrite a width _ => dataAccessOk bufBytes a width
  | .dataRead a width => dataAccessOk bufBytes a width
  | .reset => true

/-- The access is a write to `CMD`. -/
def HostOp.isCommand : HostOp → Bool
  | .regWrite off _ _ => off == 0x000
  | .regRead _ _ => false
  | .dataWrite _ _ _ => false
  | .dataRead _ _ => false
  | .reset => false

/-- The access is a read. -/
def HostOp.isRead : HostOp → Bool
  | .regWrite _ _ _ => false
  | .regRead _ _ => true
  | .dataWrite _ _ _ => false
  | .dataRead _ _ => true
  | .reset => false

/-- The access is one that the copy answers with a next state: inside the contract, a data read of a written byte, a `CMD`
write of a transform that runs only where no block of it meets an unwritten byte (R57, R58). -/
def HostOp.Answered (op : HostOp) (c : CoreState) : Prop :=
  op.inContract c.bufBytes = true ∧
  (∀ a width, op = .dataRead a width → (Memory.read c.data a).isSome) ∧
  (∀ width w i f, op = .regWrite 0x000 width w → decode w = .ok i → TransformCommand i f → c.TransformRuns →
    c.InputReady)

/-- The code that a transform with the copy's operands reports (R176, R177): KeyNotSet before BufferRange (R227). -/
def CoreState.transformCode (c : CoreState) : BitVec 4 :=
  if c.variant = 0 then 2
  else if c.nblk ≠ 0 ∧ (c.bufBytes < c.src.toNat + 16 * c.nblk.toNat ∨ c.bufBytes < c.dst.toNat + 16 * c.nblk.toNat) then 4
  else 0

/-- The code that the command word `w` reports on a copy (R220, R226): 0 where the command succeeds. -/
def CoreState.resultCode (c : CoreState) (w : Word) : BitVec 4 :=
  match decode w with
  | .error _ => 3
  | .ok .nop => 0
  | .ok .deriveSchedule => if c.keylen = 16 ∨ c.keylen = 24 ∨ c.keylen = 32 then 0 else 1
  | .ok .encryptBlocks => c.transformCode
  | .ok .decryptBlocks => c.transformCode
  | .ok .clear => 0

/-- The step answers a next state. -/
def State.StepsOn (s : State) : Prop := ∃ t, step s = .next t

end Sys2Proof.Machine
end

