-- ==== Sys2Proof/Certificates/Slice0/Obligations.lean ====
section
/-!
DEFINITION. Certificates/Slice0/Obligations.lean: the statements for the provers. Each docstring names the rules of spec/
that the statement formalises; a clause that rests on a choice of the model names its assumption log entry.
-/

open Sys2Proof Sys2Proof.Machine

/-! ### Encoding and the step -/

/-- R72, R75: the five command words decode to their commands, and the illegal words 0x12 and 0x5 to their rejections. -/
def Obligations.CommandWordsOfTheTable : Prop :=
  decode 0x00000000 = .ok .nop ∧ decode 0x00000001 = .ok .deriveSchedule ∧
  decode 0x00000002 = .ok .encryptBlocks ∧ decode 0x00000003 = .ok .decryptBlocks ∧
  decode 0x00000004 = .ok .clear ∧ decode 0x00000012 = .error (.reservedBits 1) ∧
  decode 0x00000005 = .error (.reservedSelector 5)

/-- R72, R73: decoding and encoding agree in both directions, on every command and on all 2^32 words. -/
def Obligations.DecodeAndEncodeAgree : Prop :=
  ∀ (w : Word) (i : Instr), decode w = .ok i ↔ w = encode i

/-- R73, R75: the words that decode to no command are those with RSVD ≠ 0 or OP > 4. -/
def Obligations.IllegalWordsAreTheReservedOnes : Prop :=
  ∀ w : Word, (∃ e, decode w = .error e) ↔ (rsvdField w ≠ 0 ∨ 4 < (opField w).toNat)

/-- R26, R73: the step that performs a `CMD` write of a word that decodes to `i` is `exec i` on the addressed copy. -/
def Obligations.StepRunsTheDecodedCommand : Prop :=
  ∀ (s t : State) (k : Nat) (w : Word) (i : Instr),
    s.NextIs k (.regWrite 0x000 4 w) t → decode w = .ok i → step s = exec i t

/-- R68, R73 (how a word comes to the core is the model's choice, entry 3): from the state in which a word of the opcode
table is placed as the next `CMD` write, the step runs the instruction that the decoder reads from it, on the copy in
front. -/
def Obligations.PlacedWordIsTheNextCommand : Prop :=
  ∀ (s : State) (w : Nat) (i : Instr), decodeTableWord 32 w = some i → step (s.withFetchWord 32 w) = exec i s

/-- R75, R205, R223: the step that performs a `CMD` write of an illegal word sets `ERR = 3` and changes nothing else. -/
def Obligations.IllegalWordSetsErrAndNothingElse : Prop :=
  ∀ (s t : State) (k : Nat) (w : Word),
    s.NextIs k (.regWrite 0x000 4 w) t → (rsvdField w ≠ 0 ∨ 4 < (opField w).toNat) →
      step s = .next { t with core := { t.core with err := 3 } }

/-- R40, R236: bringing a copy in front changes no copy, no order and nothing else of the platform; it fails exactly where
there is no such copy (entry 8). -/
def Obligations.BringingACopyInFrontChangesNothing : Prop :=
  ∀ (s : State) (k : Nat),
    (k < s.copies.length → ∃ t, s.focus k = some t ∧ t.copies = s.copies ∧ t.index = k ∧
      s.copies[k]? = some t.core ∧ t.pending = s.pending ∧ t.observed = s.observed) ∧
    (s.copies.length ≤ k → s.focus k = none)

/-- R20, R239 (the idle step itself is the model's, entry 4): with no host access pending a step changes nothing. -/
def Obligations.IdleStepChangesNothing : Prop :=
  ∀ s : State, s.pending = [] → step s = .next s

/-! ### Host accesses -/

/-- R202: what a register write other than to `CMD` does, offset by offset. -/
def Obligations.RegisterWritesStore : Prop :=
  ∀ (s t : State) (k off : Nat) (v : Word), s.NextIs k (.regWrite off 4 v) t →
    (off = 0x008 → step s = .next { t with core := { t.core with keylen := v } }) ∧
    (off = 0x00C → step s = .next { t with core := { t.core with nblk := v } }) ∧
    (off = 0x010 → step s = .next { t with core := { t.core with src := v } }) ∧
    (off = 0x014 → step s = .next { t with core := { t.core with dst := v } }) ∧
    (∀ j : Fin 8, off = 0x020 + 4 * j.val →
      step s = .next { t with core := { t.core with key := t.core.key.set j.val v } }) ∧
    (off % 4 = 0 → (off = 0x004 ∨ off = 0x018 ∨ off = 0x01C ∨ (0x040 ≤ off ∧ off < 0x100)) → step s = .next t)

/-- R203: what a register read returns, offset by offset; the copy is unchanged. -/
def Obligations.RegisterReadsReturn : Prop :=
  ∀ (s t : State) (k off : Nat), s.NextIs k (.regRead off 4) t → off % 4 = 0 → off < 0x100 →
    ∃ v, step s = .next { t with observed := .reg k off v :: t.observed } ∧
      (off = 0x004 → v = t.core.status) ∧ (off = 0x008 → v = t.core.keylen) ∧ (off = 0x00C → v = t.core.nblk) ∧
      (off = 0x010 → v = t.core.src) ∧ (off = 0x014 → v = t.core.dst) ∧
      ((off = 0x000 ∨ off = 0x018 ∨ off = 0x01C ∨ 0x020 ≤ off) → v = 0)

/-- R27, R28, R31: the value of `STATUS`, its fields and the bits that read 0. -/
def Obligations.StatusWordIsTheSumOfItsFields : Prop :=
  ∀ c : CoreState,
    c.status.toNat = c.keySet.toNat + 2 * c.variant.toNat + 16 * c.err.toNat + 256 * c.busy.toNat ∧
    (c.keySet = 1 ↔ c.variant ≠ 0) ∧ c.busy = 0

/-- R204: a byte write stores that byte, marks it written and changes nothing else. -/
def Obligations.DataWriteStoresOneByte : Prop :=
  ∀ (s t : State) (k a : Nat) (b : Byte), s.NextIs k (.dataWrite a 1 b) t → a < t.core.bufBytes →
    ∃ m, step s = .next { t with core := { t.core with data := m } } ∧
      Memory.read m a = some b ∧ ∀ a', a' ≠ a → Memory.read m a' = Memory.read t.core.data a'

/-- R204, R57: a byte read returns the byte, or faults where it is unwritten. -/
def Obligations.DataReadReturnsOrFaults : Prop :=
  ∀ (s t : State) (k a : Nat), s.NextIs k (.dataRead a 1) t → a < t.core.bufBytes →
    (∀ b, Memory.read t.core.data a = some b → step s = .next { t with observed := .data k a b :: t.observed }) ∧
    (Memory.read t.core.data a = none → step s = .fault (.unwrittenData a))

/-- R58, R206: an access outside the contract is refused; so is one to a copy that does not exist (entry 8). -/
def Obligations.OutOfContractAccessIsRefused : Prop :=
  (∀ (s t : State) (k : Nat) (op : HostOp), s.NextIs k op t → op.inContract t.core.bufBytes = false →
    step s = .refused .hostAccessRefused) ∧
  (∀ n off width v, (HostOp.regWrite off width v).inContract n = true ↔ width = 4 ∧ off % 4 = 0 ∧ off < 0x100) ∧
  (∀ n off width, (HostOp.regRead off width).inContract n = true ↔ width = 4 ∧ off % 4 = 0 ∧ off < 0x100) ∧
  (∀ n a width b, (HostOp.dataWrite a width b).inContract n = true ↔ width = 1 ∧ a < n) ∧
  (∀ n a width, (HostOp.dataRead a width).inContract n = true ↔ width = 1 ∧ a < n) ∧
  (∀ (s : State) (r : Request) (rest : List Request), s.pending = r :: rest → s.copies.length ≤ r.copy →
    step s = .refused (.noSuchCopy r.copy))

/-- R60: a read leaves every copy as it was, and the same read done again returns the same. -/
def Obligations.ReadsHaveNoSideEffect : Prop :=
  ∀ (s t u : State) (k : Nat) (op : HostOp), s.NextIs k op t → op.isRead = true → step s = .next u →
    u.copies = s.copies ∧ u.pending = t.pending ∧
    ∃ r, u.observed = r :: s.observed ∧
      ∀ v, step { u with pending := ⟨k, op⟩ :: u.pending } = .next v → v.observed = r :: u.observed

/-- R260, R262: a reset puts every register of the addressed copy at 0 and makes every `DATA` byte unwritten; the size of
the buffer is a parameter (entry 2), and nothing else changes. -/
def Obligations.ResetClearsTheCopy : Prop :=
  ∀ (s t : State) (k : Nat), s.NextIs k .reset t →
    ∃ c, step s = .next { t with core := c } ∧
      c.keylen = 0 ∧ c.nblk = 0 ∧ c.src = 0 ∧ c.dst = 0 ∧ (∀ j : Fin 8, c.key[j.val] = 0) ∧
      (∀ i : Fin 34, c.sk[i.val] = 0) ∧ c.variant = 0 ∧ c.err = 0 ∧ c.status = 0 ∧
      (∀ a, Memory.read c.data a = none) ∧ c.bufBytes = t.core.bufBytes

/-- R260: the reset state of the machine; that nothing is pending and nothing read is the model's own (entries 3, 5). -/
def Obligations.ResetStateIsAsTheSpecSays : Prop :=
  (∀ c ∈ State.reset.copies, c.keylen = 0 ∧ c.nblk = 0 ∧ c.src = 0 ∧ c.dst = 0 ∧ (∀ j : Fin 8, c.key[j.val] = 0) ∧
    (∀ i : Fin 34, c.sk[i.val] = 0) ∧ c.status = 0 ∧ (∀ a, Memory.read c.data a = none) ∧ 16 ≤ c.bufBytes) ∧
  1 ≤ State.reset.copies.length ∧ State.reset.pending = [] ∧ State.reset.observed = []

/-- R76, R77: the host accesses that each line of a host script stands for. The key words of `derive` hold the bytes of the
key in order, and a partial last word is filled with 0. That word j of a key of any length goes to offset 0x020 + 4j is the
model's choice from `KEY8` on (entry 15). -/
def Obligations.ScriptLinesAreTheirAccesses : Prop :=
  (∀ r v, ScriptOp.expand (.wr r v) = [.regWrite r.offset 4 v]) ∧
  (∀ r, ScriptOp.expand (.rd r) = [.regRead r.offset 4]) ∧
  (∀ a bytes i, (ScriptOp.expand (.db a bytes))[i]? = bytes[i]?.map fun b => HostOp.dataWrite (a + i) 1 b) ∧
  (∀ a n i, (ScriptOp.expand (.rb a n))[i]? = if i < n then some (HostOp.dataRead (a + i) 1) else none) ∧
  ScriptOp.expand .nop = [.regWrite 0x000 4 0] ∧
  (∀ s d n, ScriptOp.expand (.encrypt s d n) =
    [.regWrite 0x010 4 s, .regWrite 0x014 4 d, .regWrite 0x00C 4 n, .regWrite 0x000 4 2]) ∧
  (∀ s d n, ScriptOp.expand (.decrypt s d n) =
    [.regWrite 0x010 4 s, .regWrite 0x014 4 d, .regWrite 0x00C 4 n, .regWrite 0x000 4 3]) ∧
  ScriptOp.expand .clear = [.regWrite 0x000 4 4] ∧
  (∀ key, ∃ words : List Word, words.length = (key.length + 3) / 4 ∧
    ScriptOp.expand (.derive key) = (words.mapIdx fun j v => HostOp.regWrite (0x020 + 4 * j) 4 v) ++
      [.regWrite 0x008 4 (BitVec.ofNat 32 key.length), .regWrite 0x000 4 1] ∧
    ∀ (j : Nat) (v : Word), words[j]? = some v →
      ∀ m : Fin 4, byteOfWord m v = key.getD (4 * j + m.val) 0)

/-! ### NOP and CLEAR -/

/-- R200: NOP sets `ERR` to 0 and changes nothing else. -/
def Obligations.NopClearsErrOnly : Prop :=
  ∀ s : State, exec .nop s = .next { s with core := { s.core with err := 0 } }

/-- R201: CLEAR zeroes the subkeys, `VARIANT` and the key buffer, sets `ERR` to 0, keeps everything else, and is
idempotent; a transform after it raises KeyNotSet and does nothing else. -/
def Obligations.ClearErasesTheKeyMaterial : Prop :=
  ∀ s : State, ∃ t, exec .clear s = .next t ∧
    t = { s with core := { s.core with sk := t.core.sk, variant := 0, key := t.core.key, err := 0 } } ∧
    (∀ i : Fin 34, t.core.sk[i.val] = 0) ∧ (∀ j : Fin 8, t.core.key[j.val] = 0) ∧
    exec .clear t = .next t ∧
    exec .encryptBlocks t = .next { t with core := { t.core with err := 2 } } ∧
    exec .decryptBlocks t = .next { t with core := { t.core with err := 2 } }

/-! ### The key schedule -/

/-- R140, R143, R144: KA and KB, by the Feistel steps with the six constants; the table of a 16-byte key has no row of KB. -/
def Obligations.DerivedSecretsByFeistelSteps : Prop :=
  (∀ kl kr : Pair,
    let x := pairStep (kl.h ^^^ kr.h, kl.l ^^^ kr.l) 0xA09E667F3BCC908B 0xB67AE8584CAA73B2
    let y := pairStep (x.1 ^^^ kl.h, x.2 ^^^ kl.l) 0xC6EF372FE94F82BE 0x54FF53A5F1D36F1C
    deriveKA kl kr = ⟨y.1, y.2⟩) ∧
  (∀ ka kr : Pair,
    let x := pairStep (ka.h ^^^ kr.h, ka.l ^^^ kr.l) 0x10E527FADE682D1D 0xB05688C2B3E6C1FD
    deriveKB ka kr = ⟨x.1, x.2⟩) ∧
  (∀ row ∈ subkeyTable .k128, row.source ≠ .kb)

/-- R146: the two halves of the 128-bit rotation by a shift below 128, in the two-half form. -/
def Obligations.RotationInTwoHalves : Prop :=
  ∀ (x : Pair),
    (rot128Half x 0 .h = x.h ∧ rot128Half x 0 .l = x.l) ∧
    (∀ s, 0 < s → s < 64 →
      rot128Half x s .h = (x.h <<< s) ||| (x.l >>> (64 - s)) ∧
      rot128Half x s .l = (x.l <<< s) ||| (x.h >>> (64 - s))) ∧
    (rot128Half x 64 .h = x.l ∧ rot128Half x 64 .l = x.h) ∧
    (∀ s, 64 < s → s < 128 →
      rot128Half x s .h = (x.l <<< (s - 64)) ||| (x.h >>> (128 - s)) ∧
      rot128Half x s .l = (x.h <<< (s - 64)) ||| (x.l >>> (128 - s)))

/-- R54, R25: the key halves are the big-endian 32-bit words of the key buffer in order. -/
def Obligations.KeyHalvesAreTheKeyWordsInOrder : Prop :=
  ∀ (key : Vector Word 8),
    keyDWord key 0 = key[0] ++ key[1] ∧ keyDWord key 1 = key[2] ++ key[3] ∧
    keyDWord key 2 = key[4] ++ key[5] ∧ keyDWord key 3 = key[6] ++ key[7]

/-- R149, R221: a key length other than 16, 24 and 32 erases the schedule and the key buffer and raises
InvalidKeyLength; nothing else changes. -/
def Obligations.DeriveRejectsOtherLengths : Prop :=
  ∀ s : State, s.core.keylen ≠ 16 → s.core.keylen ≠ 24 → s.core.keylen ≠ 32 →
    ∃ t, exec .deriveSchedule s = .next t ∧
      t = { s with core := { s.core with sk := t.core.sk, variant := 0, key := t.core.key, err := 1 } } ∧
      (∀ i : Fin 34, t.core.sk[i.val] = 0) ∧ (∀ j : Fin 8, t.core.key[j.val] = 0)

/-- R149, R150, R141 to R148: a key of an accepted length is expanded: every subkey is the rotated half that its table row
names, the entries beyond `NSK` are 0, `VARIANT` is the class, the key buffer is erased, `ERR` is 0, the rest stays. -/
def Obligations.DeriveExpandsTheKey : Prop :=
  ∀ (s : State) (k : KeyClass),
    s.core.keylen.toNat = k.keyBytes →
    ∃ t, exec .deriveSchedule s = .next t ∧
      t = { s with core := { s.core with sk := t.core.sk, variant := k.variant, key := t.core.key, err := 0 } } ∧
      (∀ j : Fin 8, t.core.key[j.val] = 0) ∧
      (subkeyTable k).length = k.nsk ∧
      (∀ (i : Fin 34) (row : SubkeyRow), (subkeyTable k)[i.val]? = some row →
        t.core.sk[i.val] =
          (let kl : Pair := ⟨keyDWord s.core.key 0, keyDWord s.core.key 1⟩
           let kr : Pair := match k with
             | .k128 => ⟨0, 0⟩
             | .k192 => ⟨keyDWord s.core.key 2, ~~~ keyDWord s.core.key 2⟩
             | .k256 => ⟨keyDWord s.core.key 2, keyDWord s.core.key 3⟩
           let x : Pair := match row.source with
             | .kl => kl
             | .kr => kr
             | .ka => deriveKA kl kr
             | .kb => deriveKB (deriveKA kl kr) kr
           match row.half with
             | .h => (rol (x.h ++ x.l) row.shift).extractLsb' 64 64
             | .l => (rol (x.h ++ x.l) row.shift).extractLsb' 0 64)) ∧
      (∀ i : Fin 34, k.nsk ≤ i.val → t.core.sk[i.val] = 0)

/-- R150, R32, R7: the number of subkeys and of round pairs that follow from the length of the key. -/
def Obligations.ScheduleLengthFollowsFromTheKeyLength : Prop :=
  ∀ (s t : State), exec .deriveSchedule s = .next t → t.core.err = 0 →
    nskOf t.core.variant = (if s.core.keylen = 16 then 26 else 34) ∧
    ∃ k, KeyClass.ofVariant t.core.variant = some k ∧ k.nsk = nskOf t.core.variant ∧
      k.rounds = (if s.core.keylen = 16 then 9 else 12)

/-- R149 (D33, D11, D8): the result of DERIVE_SCHEDULE depends on nothing of the key material but the key bytes below
`KEYLEN`: not on the other key bytes, the earlier schedule, `VARIANT` or `ERR`. -/
def Obligations.DeriveReadsOnlyTheKeyBytesBelowKeylen : Prop :=
  ∀ (s : State) (key : Vector Word 8) (sk : Vector DWord 34) (v : BitVec 2) (e : BitVec 4),
    (∀ i : Fin 32, i.val < s.core.keylen.toNat → keyByte key i = keyByte s.core.key i) →
      exec .deriveSchedule { s with core := { s.core with key := key, sk := sk, variant := v, err := e } } =
        exec .deriveSchedule s

/-- R142: a 32-byte key whose last 8 bytes are the complement of the 8 bytes before them gives the schedule of the 24-byte
key made of its first 24 bytes; only `KEYLEN` and `VARIANT` differ. -/
def Obligations.ComplementedLongKeyGivesTheShorterSchedule : Prop :=
  ∀ (s t u : State), (∀ i : Fin 32, (h : 24 ≤ i.val) →
      keyByte s.core.key i = ~~~ keyByte s.core.key ⟨i.val - 8, by omega⟩) →
    exec .deriveSchedule { s with core := { s.core with keylen := 24 } } = .next t →
    exec .deriveSchedule { s with core := { s.core with keylen := 32 } } = .next u →
    t.core.sk = u.core.sk ∧ t.core.variant = 2 ∧ u.core.variant = 3 ∧
      u = { t with core := { t.core with keylen := 32, variant := 3 } }

/-! ### The tables, the round function and FL -/

/-- R101, R102, R103: the second, third and fourth table from the first. -/
def Obligations.TablesFollowFromTheFirst : Prop :=
  ∀ x : Byte, sbox2 x = (sbox1 x).rotateLeft 1 ∧ sbox3 x = (sbox1 x).rotateLeft 7 ∧ sbox4 x = sbox1 (x.rotateLeft 1)

/-- R104: each of the four tables is a permutation of the bytes. -/
def Obligations.TablesArePermutations : Prop :=
  Function.Bijective sbox1 ∧ Function.Bijective sbox2 ∧ Function.Bijective sbox3 ∧ Function.Bijective sbox4

/-- R110: a product of F never carries: its byte j is `s_i` where byte j of the mask is 1, and 0 elsewhere, and as a
natural it is below 2^64 before any reduction. -/
def Obligations.LaneProductsNeverCarry : Prop :=
  ∀ (i j : Fin 8) (x : DWord),
    (laneMask i).toNat * (tab i (byteOf i x)).toNat < 2 ^ 64 ∧
    (byteOf j (laneMask i) = 1 → byteOf j (laneProduct i x) = tab i (byteOf i x)) ∧
    (byteOf j (laneMask i) ≠ 1 → byteOf j (laneMask i) = 0 ∧ byteOf j (laneProduct i x) = 0)

/-- R111: the byte form of F. -/
def Obligations.RoundFunctionByteForm : Prop :=
  ∀ (v k : DWord),
    let x := v ^^^ k
    let s0 := sbox1 (byteOf 0 x)
    let s1 := sbox2 (byteOf 1 x)
    let s2 := sbox3 (byteOf 2 x)
    let s3 := sbox4 (byteOf 3 x)
    let s4 := sbox2 (byteOf 4 x)
    let s5 := sbox3 (byteOf 5 x)
    let s6 := sbox4 (byteOf 6 x)
    let s7 := sbox1 (byteOf 7 x)
    byteOf 0 (roundF v k) = s0 ^^^ s2 ^^^ s3 ^^^ s5 ^^^ s6 ^^^ s7 ∧
    byteOf 1 (roundF v k) = s0 ^^^ s1 ^^^ s3 ^^^ s4 ^^^ s6 ^^^ s7 ∧
    byteOf 2 (roundF v k) = s0 ^^^ s1 ^^^ s2 ^^^ s4 ^^^ s5 ^^^ s7 ∧
    byteOf 3 (roundF v k) = s1 ^^^ s2 ^^^ s3 ^^^ s4 ^^^ s5 ^^^ s6 ∧
    byteOf 4 (roundF v k) = s0 ^^^ s1 ^^^ s5 ^^^ s6 ^^^ s7 ∧
    byteOf 5 (roundF v k) = s1 ^^^ s2 ^^^ s4 ^^^ s6 ^^^ s7 ∧
    byteOf 6 (roundF v k) = s2 ^^^ s3 ^^^ s4 ^^^ s5 ^^^ s7 ∧
    byteOf 7 (roundF v k) = s0 ^^^ s3 ^^^ s4 ^^^ s5 ^^^ s6

/-- R109: F depends on its operands only through `v xor k`, has the stated value on equal operands, and is a bijection of
`v` for every `k`. -/
def Obligations.RoundFunctionIsABijection : Prop :=
  (∀ v k, roundF v k = roundF (v ^^^ k) 0) ∧
  (∀ v, roundF v v = 0x00000000A838E0A8) ∧
  (∀ k, Function.Bijective fun v => roundF v k)

/-- R112: the table-driven form of F. -/
def Obligations.RoundFunctionTableForm : Prop :=
  ∀ (v k : DWord),
    let x := v ^^^ k
    roundF v k = ttable 0 (byteOf 0 x) ^^^ ttable 1 (byteOf 1 x) ^^^ ttable 2 (byteOf 2 x) ^^^ ttable 3 (byteOf 3 x) ^^^
      ttable 4 (byteOf 4 x) ^^^ ttable 5 (byteOf 5 x) ^^^ ttable 6 (byteOf 6 x) ^^^ ttable 7 (byteOf 7 x)

/-- R133: FLINV undoes FL and FL undoes FLINV, so both are bijections, for every key. -/
def Obligations.KeyedLayerInverses : Prop :=
  ∀ (k : DWord), (∀ v, flinv (fl v k) k = v ∧ fl (flinv v k) k = v) ∧
    Function.Bijective (fun v => fl v k) ∧ Function.Bijective (fun v => flinv v k)

/-! ### The block driver -/

/-- R172: the subkeys that EncBlock uses, unrolled, for 26 and for 34 subkeys. -/
def Obligations.EncryptionUnrolled : Prop :=
  ∀ (sk : Vector DWord 34) (blk : Block),
    let x := (blk.hi ^^^ sk[0], blk.lo ^^^ sk[1])
    let x := pairStep (pairStep (pairStep x sk[2] sk[3]) sk[4] sk[5]) sk[6] sk[7]
    let x := pairStep (pairStep (pairStep (layerStep x sk[8] sk[9]) sk[10] sk[11]) sk[12] sk[13]) sk[14] sk[15]
    let y := pairStep (pairStep (pairStep (layerStep x sk[16] sk[17]) sk[18] sk[19]) sk[20] sk[21]) sk[22] sk[23]
    let z := pairStep (pairStep (pairStep (layerStep y sk[24] sk[25]) sk[26] sk[27]) sk[28] sk[29]) sk[30] sk[31]
    encBlock sk .k128 blk = Block.ofWords (y.2 ^^^ sk[24]) (y.1 ^^^ sk[25]) ∧
    encBlock sk .k192 blk = Block.ofWords (z.2 ^^^ sk[32]) (z.1 ^^^ sk[33]) ∧
    encBlock sk .k256 blk = Block.ofWords (z.2 ^^^ sk[32]) (z.1 ^^^ sk[33])

/-- R174: the subkeys that DecBlock uses, unrolled, for 26 and for 34 subkeys. -/
def Obligations.DecryptionUnrolled : Prop :=
  ∀ (sk : Vector DWord 34) (blk : Block),
    let tail := fun (x : DWord × DWord) =>
      let x := pairStep (pairStep (pairStep x sk[23] sk[22]) sk[21] sk[20]) sk[19] sk[18]
      let x := pairStep (pairStep (pairStep (layerStep x sk[17] sk[16]) sk[15] sk[14]) sk[13] sk[12]) sk[11] sk[10]
      let x := pairStep (pairStep (pairStep (layerStep x sk[9] sk[8]) sk[7] sk[6]) sk[5] sk[4]) sk[3] sk[2]
      Block.ofWords (x.2 ^^^ sk[0]) (x.1 ^^^ sk[1])
    let z := pairStep (pairStep (pairStep (blk.hi ^^^ sk[32], blk.lo ^^^ sk[33]) sk[31] sk[30]) sk[29] sk[28]) sk[27] sk[26]
    decBlock sk .k128 blk = tail (blk.hi ^^^ sk[24], blk.lo ^^^ sk[25]) ∧
    decBlock sk .k192 blk = tail (layerStep z sk[25] sk[24]) ∧
    decBlock sk .k256 blk = tail (layerStep z sk[25] sk[24])

/-- R175: DecBlock undoes EncBlock and EncBlock undoes DecBlock, for every schedule, class and block. -/
def Obligations.BlockRoundTrip : Prop :=
  ∀ (sk : Vector DWord 34) (k : KeyClass) (blk : Block),
    decBlock sk k (encBlock sk k blk) = blk ∧ encBlock sk k (decBlock sk k blk) = blk

/-- R222, R227: with no schedule a transform raises KeyNotSet, whatever its other operands, and changes nothing else. -/
def Obligations.TransformWithoutScheduleRaisesKeyNotSet : Prop :=
  ∀ (s : State) (i : Instr), (i = .encryptBlocks ∨ i = .decryptBlocks) → s.core.variant = 0 →
    exec i s = .next { s with core := { s.core with err := 2 } }

/-- R179, R224: with a schedule, a transform of N > 0 blocks whose input or output range leaves `DATA` raises BufferRange
and changes nothing else; the sums are natural numbers. -/
def Obligations.TransformOutsideTheBufferRaisesBufferRange : Prop :=
  ∀ (s : State) (i : Instr), (i = .encryptBlocks ∨ i = .decryptBlocks) → s.core.variant ≠ 0 → s.core.nblk ≠ 0 →
    (s.core.bufBytes < s.core.src.toNat + 16 * s.core.nblk.toNat ∨
      s.core.bufBytes < s.core.dst.toNat + 16 * s.core.nblk.toNat) →
    exec i s = .next { s with core := { s.core with err := 4 } }

/-- R181: a transform of no block only sets `ERR`: to 0 with a schedule, with no bounds check and no access to `DATA`, and
to KeyNotSet without one. -/
def Obligations.TransformOfNoBlockOnlySetsErr : Prop :=
  ∀ (s : State) (i : Instr), (i = .encryptBlocks ∨ i = .decryptBlocks) → s.core.nblk = 0 →
    (s.core.variant ≠ 0 → exec i s = .next { s with core := { s.core with err := 0 } }) ∧
    (s.core.variant = 0 → exec i s = .next { s with core := { s.core with err := 2 } })

/-- R176, R177, R178: a transform with a schedule and its ranges inside `DATA` completes where every byte of each input block
is written before the command or by an earlier block of it: only `ERR` and the bytes of the output range change, and every
byte of that range is written. -/
def Obligations.TransformCompletes : Prop :=
  ∀ (s : State) (i : Instr), (i = .encryptBlocks ∨ i = .decryptBlocks) → s.core.TransformRuns → s.core.InputReady →
    ∃ m, exec i s = .next { s with core := { s.core with data := m, err := 0 } } ∧
      (∀ a, ¬ s.core.InOutput a → Memory.read m a = Memory.read s.core.data a) ∧
      (∀ a, s.core.InOutput a → (Memory.read m a).isSome)

/-- R176, R177, R51, R62: where the ranges are the same or disjoint, output block b of a transform is EncBlock or DecBlock
of input block b. -/
def Obligations.TransformMapsEveryBlock : Prop :=
  ∀ (s : State) (i : Instr) (f : Vector DWord 34 → KeyClass → Block → Block), TransformCommand i f →
    s.core.TransformRuns → s.core.InputWritten → s.core.InPlaceOrDisjoint →
    ∃ t k, exec i s = .next t ∧ KeyClass.ofVariant s.core.variant = some k ∧
      ∀ b < s.core.blockCount, ∃ blk,
        Memory.readBlock s.core.data (s.core.srcAddr + 16 * b) = .ok blk ∧
        Memory.readBlock t.core.data (s.core.dstAddr + 16 * b) = .ok (f s.core.sk k blk)

/-- R178, R62: blocks are processed one after the other, also where the ranges overlap: the transform of n+1 blocks is that
of the first n, then block n read from what they left and its output written. -/
def Obligations.TransformIsBlockSequential : Prop :=
  ∀ (s t : State) (i : Instr) (f : Vector DWord 34 → KeyClass → Block → Block) (n : Nat), TransformCommand i f →
    s.core.TransformRuns → s.core.nblk.toNat = n + 1 → exec i s = .next t →
    ∃ u k blk, exec i { s with core := { s.core with nblk := BitVec.ofNat 32 n } } = .next u ∧
      KeyClass.ofVariant s.core.variant = some k ∧
      Memory.readBlock u.core.data (s.core.srcAddr + 16 * n) = .ok blk ∧
      t.core.data = Memory.writeBlock u.core.data (s.core.dstAddr + 16 * n) (f s.core.sk k blk)

/-- R175 (the source's law of whole buffers), R62: a buffer encrypted in place and decrypted in place is the buffer it was;
the state is the one before but for `ERR` = 0. -/
def Obligations.InPlaceBufferRoundTrip : Prop :=
  ∀ s : State, s.Inv → s.core.TransformRuns → s.core.InputWritten → s.core.src = s.core.dst →
    (∃ t, exec .encryptBlocks s = .next t ∧
      exec .decryptBlocks t = .next { s with core := { s.core with err := 0 } }) ∧
    (∃ t, exec .decryptBlocks s = .next t ∧
      exec .encryptBlocks t = .next { s with core := { s.core with err := 0 } })

/-- R57, R178, R229: a command is never refused, and it faults exactly as a transform that runs and one of whose blocks meets
an unwritten input byte: a byte that neither was written before the command nor is written by an earlier block of it. Where
the ranges are the same or disjoint, every byte unwritten before the command is one. That the fault names the lowest such
address is the model's choice and in no rule (entry 6). -/
def Obligations.CommandsStopOnlyOnUnwrittenInput : Prop :=
  (∀ (i : Instr) (s : State) r, exec i s ≠ .refused r) ∧
  (∀ (i : Instr) (s : State) e, exec i s = .fault e →
    (i = .encryptBlocks ∨ i = .decryptBlocks) ∧ s.core.TransformRuns ∧
      ∃ j < s.core.byteCount, e = .unwrittenData (s.core.srcAddr + j) ∧ ¬ s.core.InputByteReady j) ∧
  (∀ (i : Instr) (s : State) (j : Nat), (i = .encryptBlocks ∨ i = .decryptBlocks) → s.core.TransformRuns →
    j < s.core.byteCount → ¬ s.core.InputByteReady j →
    (∃ a, exec i s = .fault (.unwrittenData a)) ∧
    ((∀ l < j, s.core.InputByteReady l) → exec i s = .fault (.unwrittenData (s.core.srcAddr + j)))) ∧
  (∀ (s : State) (j : Nat), s.core.InPlaceOrDisjoint → j < s.core.byteCount →
    Memory.read s.core.data (s.core.srcAddr + j) = none → ¬ s.core.InputByteReady j)

/-! ### Rules over all commands and steps -/

/-- R225: a command that reports an error writes no `DATA` byte, and it is decided without any: whatever `DATA` holds, the
command ends the same way and leaves what it found there. -/
def Obligations.AnErrorWritesNoData : Prop :=
  ∀ (i : Instr) (s t : State), exec i s = .next t → t.core.err ≠ 0 →
    t.core.data = s.core.data ∧
    ∀ m, exec i { s with core := { s.core with data := m } } = .next { t with core := { t.core with data := m } }

/-- R21 to R25, R28, R29, R33, R40, R50 (that the size of the buffer stays is the model's, entry 2): no command changes `KEYLEN`, `NBLK`, `SRC`, `DST`, the size of the buffer or another copy;
only DERIVE_SCHEDULE and CLEAR change `SK`, `VARIANT` and the key buffer; only transforms change `DATA`. -/
def Obligations.WhatCommandsLeaveUnchanged : Prop :=
  ∀ (i : Instr) (s t : State), exec i s = .next t →
    (∃ c, t = { s with core := c } ∧ c.keylen = s.core.keylen ∧ c.nblk = s.core.nblk ∧ c.src = s.core.src ∧
      c.dst = s.core.dst ∧ c.bufBytes = s.core.bufBytes) ∧
    (i ≠ .deriveSchedule → i ≠ .clear →
      t.core.sk = s.core.sk ∧ t.core.variant = s.core.variant ∧ t.core.key = s.core.key) ∧
    (i ≠ .encryptBlocks → i ≠ .decryptBlocks → t.core.data = s.core.data)

/-- R226: every command, legal or illegal, overwrites `ERR` with the code of its own outcome (0 on success), whatever it was,
and a step that performs neither a `CMD` write nor a reset changes it in no copy. -/
def Obligations.OnlyCommandsWriteErr : Prop :=
  (∀ (w : Word) (s t : State), runCommand w s = .next t → t.core.err = s.core.resultCode w) ∧
  (∀ (w : Word) (s : State) (e : BitVec 4), runCommand w { s with core := { s.core with err := e } } = runCommand w s) ∧
  (∀ (s t u : State) (k : Nat) (op : HostOp), s.NextIs k op t → op.isCommand = false → op ≠ .reset →
    step s = .next u → u.copies.map CoreState.err = s.copies.map CoreState.err)

/-- R40, R236: a step changes no copy but the one it addresses, and what a command does to its copy depends on that copy
alone. -/
def Obligations.CopiesAreIndependent : Prop :=
  (∀ (s t u : State) (k : Nat) (op : HostOp), s.NextIs k op t → step s = .next u →
    u.copies.length = s.copies.length ∧ ∀ j, j ≠ k → u.copies[j]? = s.copies[j]?) ∧
  (∀ (i : Instr) (s s' t : State), s.core = s'.core → exec i s = .next t →
    exec i s' = .next { s' with core := t.core })

/-- R64, R234, R25, R33: no access but a `CMD` write tells the host anything of the key material: from two states that
differ only in keys and subkeys it answers alike. -/
def Obligations.AccessesRevealNoKeyMaterial : Prop :=
  ∀ (s s' t u : State) (k : Nat) (op : HostOp), s.NextIs k op t → op.isCommand = false →
    s.hideKeys = s'.hideKeys → step s = .next u →
    ∃ u', step s' = .next u' ∧ u.hideKeys = u'.hideKeys

/-- R58, R57, R178, R206: a step whose next access is inside the contract and meets no unwritten byte, neither as a data read
nor in any block of a transform, answers a next state. -/
def Obligations.AnsweredAccessesStepOn : Prop :=
  ∀ (s t : State) (k : Nat) (op : HostOp), s.NextIs k op t → op.Answered t.core → s.StepsOn

/-- R9, R30, R33, R38: the invariant of the platform is kept by every step from every state that has it. -/
def Obligations.EveryStepKeepsThePlatformInvariant : Prop :=
  ∀ s t : State, s.Inv → step s = .next t → t.Inv

/-- R260: the reset state has the invariant of the platform. -/
def Obligations.ResetStateHasThePlatformInvariant : Prop :=
  State.reset.Inv
end

