-- ==== Sys2Proof/Laws/Bits.lean ====
section
/-!
SUPPORT. Laws/Bits.lean: the small lemmas of the byte, half and block conversions (R11 to R13, R52, R53).
-/

namespace Sys2Proof.Machine

@[simp] theorem hi32_append (a b : Word) : hi32 (a ++ b) = a := by
  apply BitVec.eq_of_getLsbD_eq
  intro i hi
  simp only [hi32, BitVec.getLsbD_extractLsb', BitVec.getLsbD_append]
  simp [hi]

@[simp] theorem lo32_append (a b : Word) : lo32 (a ++ b) = b := by
  apply BitVec.eq_of_getLsbD_eq
  intro i hi
  simp only [lo32, BitVec.getLsbD_extractLsb', BitVec.getLsbD_append]
  simp [hi]

@[simp] theorem hi32_append_lo32 (v : DWord) : hi32 v ++ lo32 v = v := by
  apply BitVec.eq_of_getLsbD_eq
  intro i hi
  simp only [lo32, hi32, BitVec.getLsbD_extractLsb', BitVec.getLsbD_append]
  by_cases h : i < 32
  · simp [h]
  · have h1 : 32 + (i - 32) = i := by omega
    have h2 : i - 32 < 32 := by omega
    simp [h, h1, h2]

/-- `bytes64` undoes `be64` (R13). -/
@[simp] theorem byteOf_be64 (b : Fin 8 → Byte) (i : Fin 8) : byteOf i (be64 b) = b i := by
  apply BitVec.eq_of_getLsbD_eq
  intro j hj
  simp only [byteOf, be64, BitVec.getLsbD_extractLsb', BitVec.getLsbD_append]
  fin_cases i <;> interval_cases j <;> simp

/-- `be64` undoes `bytes64` (R13). -/
@[simp] theorem be64_byteOf (w : DWord) : (be64 fun i => byteOf i w) = w := by
  apply BitVec.eq_of_getLsbD_eq
  intro j hj
  simp only [byteOf, be64, BitVec.getLsbD_extractLsb', BitVec.getLsbD_append]
  interval_cases j <;> simp

/-- Bit `i` of a left rotation by `s` is bit `i - s`, taken around (R12). -/
theorem getLsbD_rol {n : Nat} (v : BitVec n) {s i : Nat} (hs : s < n) (hi : i < n) :
    (rol v s).getLsbD i = if i < s then v.getLsbD (n - s + i) else v.getLsbD (i - s) := by
  unfold rol
  by_cases h0 : s = 0
  · simp [h0]
  · rw [if_neg h0, BitVec.getLsbD_or, BitVec.getLsbD_shiftLeft, BitVec.getLsbD_ushiftRight]
    by_cases h : i < s
    · simp [h]
    · have : n ≤ n - s + i := by omega
      simp [h, hi, BitVec.getLsbD_of_ge _ _ this]

/-- A 64-bit word is determined by its eight bytes. -/
theorem eq_of_byteOf_eq {v w : DWord} (h : ∀ i, byteOf i v = byteOf i w) : v = w := by
  rw [← be64_byteOf v, ← be64_byteOf w]
  exact congrArg be64 (funext h)

@[simp] theorem byteOf_xor (i : Fin 8) (v w : DWord) : byteOf i (v ^^^ w) = byteOf i v ^^^ byteOf i w := by
  simp [byteOf, BitVec.extractLsb'_xor]

@[simp] theorem byteOf_zero (i : Fin 8) : byteOf i 0 = 0 := by
  simp [byteOf]

/-- The first half of a block stored from two words is the first word. -/
@[simp] theorem Block.hi_ofWords (x y : DWord) : (Block.ofWords x y).hi = x := by
  conv_rhs => rw [← be64_byteOf x]
  rfl

/-- The second half of a block stored from two words is the second word. -/
@[simp] theorem Block.lo_ofWords (x y : DWord) : (Block.ofWords x y).lo = y := by
  conv_rhs => rw [← be64_byteOf y]
  rfl

/-- A block is the block of its two halves. -/
@[simp] theorem Block.ofWords_hi_lo (b : Block) : Block.ofWords b.hi b.lo = b := by
  ext i hi
  interval_cases i <;> simp [Block.ofWords, Block.hi, Block.lo]

/-- A block is the block of its bytes. -/
@[simp] theorem Block.ofBytes_toList (b : Block) : Block.ofBytes b.toList = b := by
  ext i hi
  simp [Block.ofBytes, List.getD_eq_getElem?_getD]

/-- The bytes of the block of 16 bytes are these bytes. -/
theorem Block.toList_ofBytes {l : List Byte} (h : l.length = 16) : (Block.ofBytes l).toList = l := by
  apply List.ext_getElem
  · simp [h]
  · intro i h1 h2
    simp [Block.ofBytes, List.getD_eq_getElem?_getD, h2]

end Sys2Proof.Machine
end

