-- ==== Sys2Proof/Laws/Memory.lean ====
section
/-!
SUPPORT. Laws/Memory.lean: the laws of the data buffer: reading after writing, and the canonical form that every operation
keeps (R14, R38, R39, R60).
-/

namespace Sys2Proof.Machine

/-! ### One byte -/

/-- Reading after writing one byte: the byte where it was written, the old contents elsewhere. -/
theorem Memory.read_write (m : Memory) (a : Nat) (b : Byte) (x : Nat) :
    Memory.read (Memory.write m a b) x = if x = a then some b else Memory.read m x := by
  induction m with
  | nil => simp [Memory.write, Memory.read, eq_comm]
  | cons c m ih =>
    unfold Memory.write
    split
    · by_cases h : x = a
      · simp [Memory.read, h]
      · simp [Memory.read, h, Ne.symm h]
    · split
      · rename_i h
        subst h
        by_cases h : x = c.1
        · simp [Memory.read, h]
        · simp [Memory.read, h, Ne.symm h]
      · rename_i h
        by_cases hx : c.1 = x
        · subst hx
          simp [Memory.read, h]
        · simp [Memory.read, hx, ih]

@[simp] theorem Memory.read_write_self (m : Memory) (a : Nat) (b : Byte) :
    Memory.read (Memory.write m a b) a = some b := by
  simp [Memory.read_write]

theorem Memory.read_write_of_ne {m : Memory} {a x : Nat} {b : Byte} (h : x ≠ a) :
    Memory.read (Memory.write m a b) x = Memory.read m x := by
  simp [Memory.read_write, h]

/-- What a memory lists after a write was listed before or is the byte written. -/
theorem Memory.mem_write {m : Memory} {a : Nat} {b : Byte} {p : Host.Cell} (h : p ∈ Memory.write m a b) :
    p = (a, b) ∨ p ∈ m := by
  induction m with
  | nil => simpa [Memory.write] using h
  | cons c m ih =>
    unfold Memory.write at h
    split at h
    · simpa using h
    · split at h
      · rcases List.mem_cons.1 h with h | h
        · exact .inl h
        · exact .inr (List.mem_cons_of_mem _ h)
      · rcases List.mem_cons.1 h with h | h
        · exact .inr (h ▸ List.mem_cons_self)
        · exact (ih h).imp_right (List.mem_cons_of_mem _)

/-- A write keeps the canonical form. -/
theorem Memory.wf_write {m : Memory} (h : Memory.wf m) (a : Nat) (b : Byte) : Memory.wf (Memory.write m a b) := by
  induction m with
  | nil => simp [Memory.write, Memory.wf]
  | cons c m ih =>
    have hm : Memory.wf m := (List.pairwise_cons.1 h).2
    have hc : ∀ p ∈ m, c.1 < p.1 := fun p hp => (List.pairwise_cons.1 h).1 p.1 (List.mem_map_of_mem hp)
    unfold Memory.write
    split
    · rename_i hlt
      refine List.pairwise_cons.2 ⟨fun x hx => ?_, h⟩
      obtain ⟨p, hp, rfl⟩ := List.mem_map.1 hx
      rcases List.mem_cons.1 hp with rfl | hp
      · exact hlt
      · exact lt_trans hlt (hc p hp)
    · split
      · rename_i heq
        subst heq
        exact h
      · rename_i hlt hne
        refine List.pairwise_cons.2 ⟨fun x hx => ?_, ih hm⟩
        obtain ⟨p, hp, rfl⟩ := List.mem_map.1 hx
        rcases Memory.mem_write hp with rfl | hp
        · exact lt_of_le_of_ne (not_lt.1 hlt) hne
        · exact hc p hp

/-- An address below all those listed is unwritten. -/
theorem Memory.read_eq_none_of_lt {m : Memory} {a : Nat} (h : ∀ p ∈ m, a < p.1) : Memory.read m a = none := by
  induction m with
  | nil => rfl
  | cons c m ih =>
    have := h c List.mem_cons_self
    simp [Memory.read, Nat.ne_of_gt this, ih fun p hp => h p (List.mem_cons_of_mem _ hp)]

/-- Two memories in canonical form that read alike everywhere are equal. -/
theorem Memory.ext_read {m n : Memory} (hm : Memory.wf m) (hn : Memory.wf n)
    (h : ∀ a, Memory.read m a = Memory.read n a) : m = n := by
  induction m generalizing n with
  | nil =>
    cases n with
    | nil => rfl
    | cons d n => simpa [Memory.read] using h d.1
  | cons c m ih =>
    have hcm : ∀ p ∈ m, c.1 < p.1 := fun p hp => (List.pairwise_cons.1 hm).1 p.1 (List.mem_map_of_mem hp)
    cases n with
    | nil => simpa [Memory.read] using h c.1
    | cons d n =>
      have hdn : ∀ p ∈ n, d.1 < p.1 := fun p hp => (List.pairwise_cons.1 hn).1 p.1 (List.mem_map_of_mem hp)
      have hcd : c.1 = d.1 := by
        rcases Nat.lt_trichotomy c.1 d.1 with hlt | heq | hgt
        · have := h c.1
          rw [Memory.read_eq_none_of_lt (m := d :: n)] at this
          · simp [Memory.read] at this
          · intro p hp
            rcases List.mem_cons.1 hp with rfl | hp
            · exact hlt
            · exact lt_trans hlt (hdn p hp)
        · exact heq
        · have := h d.1
          rw [Memory.read_eq_none_of_lt (m := c :: m)] at this
          · simp [Memory.read] at this
          · intro p hp
            rcases List.mem_cons.1 hp with rfl | hp
            · exact hgt
            · exact lt_trans hgt (hcm p hp)
      have hval : c.2 = d.2 := by
        have := h c.1
        simpa [Memory.read, hcd] using this
      have : m = n := by
        refine ih (List.pairwise_cons.1 hm).2 (List.pairwise_cons.1 hn).2 fun a => ?_
        by_cases ha : c.1 = a
        · subst ha
          rw [Memory.read_eq_none_of_lt hcm, Memory.read_eq_none_of_lt (hcd ▸ hdn)]
        · have := h a
          simpa [Memory.read, ha, hcd ▸ ha] using this
      rw [this, Prod.ext hcd hval]

/-! ### Several bytes -/

/-- Reading after `MemWrite`: the bytes of the list in its range, the old contents elsewhere. -/
theorem Memory.read_writeBytes (l : List Byte) (m : Memory) (a x : Nat) :
    Memory.read (Memory.writeBytes m a l) x =
      if a ≤ x ∧ x < a + l.length then l[x - a]? else Memory.read m x := by
  induction l generalizing m a with
  | nil =>
    have : ¬ (a ≤ x ∧ x < a + ([] : List Byte).length) := by simp
    rw [if_neg this]
    rfl
  | cons b l ih =>
    rw [Memory.writeBytes, ih]
    by_cases h1 : a + 1 ≤ x ∧ x < a + 1 + l.length
    · rw [if_pos h1, if_pos (by simp; omega)]
      obtain ⟨k, hk⟩ : ∃ k, x - a = k + 1 := ⟨x - a - 1, by omega⟩
      rw [hk, List.getElem?_cons_succ]
      congr 1
      omega
    · rw [if_neg h1]
      by_cases h2 : x = a
      · subst h2
        simp
      · rw [Memory.read_write_of_ne h2, if_neg (by simp; omega)]

theorem Memory.wf_writeBytes {l : List Byte} {m : Memory} (h : Memory.wf m) (a : Nat) :
    Memory.wf (Memory.writeBytes m a l) := by
  induction l generalizing m a with
  | nil => exact h
  | cons b l ih => exact ih (Memory.wf_write h a b) (a + 1)

/-- What a memory lists after `MemWrite` was listed before or lies in the range written. -/
theorem Memory.mem_writeBytes {l : List Byte} {m : Memory} {a : Nat} {p : Host.Cell}
    (h : p ∈ Memory.writeBytes m a l) : (a ≤ p.1 ∧ p.1 < a + l.length) ∨ p ∈ m := by
  induction l generalizing m a with
  | nil => exact .inr h
  | cons b l ih =>
    simp only [List.length_cons]
    rcases ih h with h | h
    · exact .inl (by omega)
    · rcases Memory.mem_write h with rfl | h
      · exact .inl (by simp)
      · exact .inr h

/-- `MemRead` answers bytes exactly where every byte of the range is written, and then these. -/
theorem Memory.readBytes_eq_ok_iff {m : Memory} {n a : Nat} {l : List Byte} :
    Memory.readBytes m a n = .ok l ↔ l.length = n ∧ ∀ i < n, Memory.read m (a + i) = l[i]? := by
  induction n generalizing a l with
  | zero =>
    constructor
    · intro h
      simp only [Memory.readBytes, Except.ok.injEq] at h
      subst h
      simp
    · intro h
      have : l = [] := List.length_eq_zero_iff.1 h.1
      simp [Memory.readBytes, this]
  | succ n ih =>
    rw [Memory.readBytes]
    constructor
    · intro h
      split at h
      · cases h
      · rename_i b hb
        split at h
        · rename_i bs hbs
          cases h
          obtain ⟨hl, hr⟩ := ih.1 hbs
          refine ⟨by simp [hl], fun i hi => ?_⟩
          cases i with
          | zero => simpa using hb
          | succ i =>
            have := hr i (by omega)
            rw [List.getElem?_cons_succ, ← this]
            congr 1
            omega
        · cases h
    · rintro ⟨hl, hr⟩
      cases l with
      | nil => simp at hl
      | cons b bs =>
        have h0 : Memory.read m a = some b := by simpa using hr 0 (by omega)
        have hbs : Memory.readBytes m (a + 1) n = .ok bs := by
          refine ih.2 ⟨by simpa using hl, fun i hi => ?_⟩
          have := hr (i + 1) (by omega)
          rw [List.getElem?_cons_succ] at this
          rw [← this]
          congr 1
          omega
        rw [h0]
        simp only
        rw [hbs]

/-- `MemRead` faults at the first unwritten byte of its range. -/
theorem Memory.readBytes_eq_error_iff {m : Memory} {n a : Nat} {e : Fault} :
    Memory.readBytes m a n = .error e ↔
      ∃ j < n, e = .unwrittenData (a + j) ∧ Memory.read m (a + j) = none ∧
        ∀ i < j, (Memory.read m (a + i)).isSome := by
  induction n generalizing a with
  | zero => simp [Memory.readBytes]
  | succ n ih =>
    rw [Memory.readBytes]
    constructor
    · intro h
      split at h
      · rename_i hb
        cases h
        exact ⟨0, by omega, rfl, hb, by simp⟩
      · rename_i b hb
        split at h
        · cases h
        · rename_i f hf
          cases h
          obtain ⟨j, hj, rfl, hn, hs⟩ := ih.1 hf
          refine ⟨j + 1, by omega, by simp [Nat.add_comm, Nat.add_left_comm], ?_, fun i hi => ?_⟩
          · rw [← hn]; congr 1; omega
          · cases i with
            | zero => simp [hb]
            | succ i =>
              have := hs i (by omega)
              rwa [show a + (i + 1) = a + 1 + i by omega]
    · rintro ⟨j, hj, rfl, hn, hs⟩
      cases j with
      | zero =>
        rw [Nat.add_zero] at hn
        rw [hn]
        rfl
      | succ j =>
        have h0 : (Memory.read m a).isSome := by simpa using hs 0 (by omega)
        obtain ⟨b, hb⟩ := Option.isSome_iff_exists.1 h0
        have hf : Memory.readBytes m (a + 1) n = .error (.unwrittenData (a + (j + 1))) := by
          refine ih.2 ⟨j, by omega, by rw [show a + (j + 1) = a + 1 + j by omega], ?_, fun i hi => ?_⟩
          · rw [← hn]; congr 1; omega
          · have := hs (i + 1) (by omega)
            rwa [show a + 1 + i = a + (i + 1) by omega]
        rw [hb]
        simp only
        rw [hf]

/-! ### A block -/

/-- A block is read exactly where its 16 bytes are written. -/
theorem Memory.readBlock_eq_ok_iff {m : Memory} {a : Nat} {blk : Block} :
    Memory.readBlock m a = .ok blk ↔ ∀ i : Fin 16, Memory.read m (a + i.val) = some blk[i.val] := by
  unfold Memory.readBlock
  constructor
  · intro h i
    split at h
    · rename_i l hl
      cases h
      obtain ⟨hlen, hr⟩ := Memory.readBytes_eq_ok_iff.1 hl
      rw [hr i.val i.isLt]
      have : i.val < l.length := hlen ▸ i.isLt
      simp [Block.ofBytes, List.getD_eq_getElem?_getD, this]
    · cases h
  · intro h
    have : Memory.readBytes m a Config.blockBytes = .ok blk.toList := by
      refine Memory.readBytes_eq_ok_iff.2 ⟨by simp, fun i hi => ?_⟩
      rw [h ⟨i, hi⟩]
      simp
    rw [this]
    simp

/-- A block whose 16 bytes are written can be read. -/
theorem Memory.exists_readBlock {m : Memory} {a : Nat} (h : ∀ i < 16, (Memory.read m (a + i)).isSome) :
    ∃ blk, Memory.readBlock m a = .ok blk := by
  refine ⟨Vector.ofFn fun i : Fin 16 => (Memory.read m (a + i.val)).get (h i.val i.isLt), ?_⟩
  refine Memory.readBlock_eq_ok_iff.2 fun i => ?_
  simp

/-- Reading a block faults at its first unwritten byte. -/
theorem Memory.readBlock_eq_error_iff {m : Memory} {a : Nat} {e : Fault} :
    Memory.readBlock m a = .error e ↔
      ∃ j < 16, e = .unwrittenData (a + j) ∧ Memory.read m (a + j) = none ∧
        ∀ i < j, (Memory.read m (a + i)).isSome := by
  rw [← Memory.readBytes_eq_error_iff]
  unfold Memory.readBlock
  constructor
  · intro h
    split at h
    · cases h
    · rename_i f hf
      cases h
      exact hf
  · intro h
    rw [show Memory.readBytes m a Config.blockBytes = .error e from h]

/-- Reading a byte after a block was written. -/
theorem Memory.read_writeBlock (m : Memory) (a : Nat) (blk : Block) (x : Nat) :
    Memory.read (Memory.writeBlock m a blk) x =
      if h : a ≤ x ∧ x < a + 16 then some (blk[x - a]'(by omega)) else Memory.read m x := by
  rw [Memory.writeBlock, Memory.read_writeBytes]
  by_cases h : a ≤ x ∧ x < a + 16
  · have : x - a < 16 := by omega
    simp [h, this]
  · simp [h]

theorem Memory.read_writeBlock_of_not_mem {m : Memory} {a x : Nat} {blk : Block} (h : ¬ (a ≤ x ∧ x < a + 16)) :
    Memory.read (Memory.writeBlock m a blk) x = Memory.read m x := by
  rw [Memory.read_writeBlock, dif_neg h]

/-- The block written is the block read back. -/
@[simp] theorem Memory.readBlock_writeBlock (m : Memory) (a : Nat) (blk : Block) :
    Memory.readBlock (Memory.writeBlock m a blk) a = .ok blk := by
  refine Memory.readBlock_eq_ok_iff.2 fun i => ?_
  rw [Memory.read_writeBlock, dif_pos (by omega)]
  simp

/-- Writing a block does not change a block that does not meet it. -/
theorem Memory.readBlock_writeBlock_of_disjoint {m : Memory} {a x : Nat} {blk : Block}
    (h : a + 16 ≤ x ∨ x + 16 ≤ a) :
    Memory.readBlock (Memory.writeBlock m a blk) x = Memory.readBlock m x := by
  have hread : ∀ i < 16, Memory.read (Memory.writeBlock m a blk) (x + i) = Memory.read m (x + i) := fun i hi =>
    Memory.read_writeBlock_of_not_mem (by omega)
  cases hm : Memory.readBlock m x with
  | ok b =>
    exact Memory.readBlock_eq_ok_iff.2 fun i => (hread i i.isLt).trans (Memory.readBlock_eq_ok_iff.1 hm i)
  | error e =>
    obtain ⟨j, hj, rfl, hn, hs⟩ := Memory.readBlock_eq_error_iff.1 hm
    exact Memory.readBlock_eq_error_iff.2
      ⟨j, hj, rfl, (hread j hj).trans hn, fun i hi => (hread i (by omega)).symm ▸ hs i hi⟩

theorem Memory.wf_writeBlock {m : Memory} (h : Memory.wf m) (a : Nat) (blk : Block) :
    Memory.wf (Memory.writeBlock m a blk) :=
  Memory.wf_writeBytes h a

/-- What a memory lists after a block was written was listed before or lies in the block. -/
theorem Memory.mem_writeBlock {m : Memory} {a : Nat} {blk : Block} {p : Host.Cell}
    (h : p ∈ Memory.writeBlock m a blk) : (a ≤ p.1 ∧ p.1 < a + 16) ∨ p ∈ m := by
  simpa using Memory.mem_writeBytes h

end Sys2Proof.Machine
end

