-- ==== Sys2Proof/Laws/State.lean ====
section
/-!
SUPPORT. Laws/State.lean: one lemma per field per update of the state, each true by unfolding once.
-/

namespace Sys2Proof.Machine

/-! ### `raise` -/

@[simp] theorem CoreState.raise_bufBytes (e : ErrorCode) (c : CoreState) : (c.raise e).bufBytes = c.bufBytes := rfl
@[simp] theorem CoreState.raise_keylen (e : ErrorCode) (c : CoreState) : (c.raise e).keylen = c.keylen := rfl
@[simp] theorem CoreState.raise_nblk (e : ErrorCode) (c : CoreState) : (c.raise e).nblk = c.nblk := rfl
@[simp] theorem CoreState.raise_src (e : ErrorCode) (c : CoreState) : (c.raise e).src = c.src := rfl
@[simp] theorem CoreState.raise_dst (e : ErrorCode) (c : CoreState) : (c.raise e).dst = c.dst := rfl
@[simp] theorem CoreState.raise_key (e : ErrorCode) (c : CoreState) : (c.raise e).key = c.key := rfl
@[simp] theorem CoreState.raise_sk (e : ErrorCode) (c : CoreState) : (c.raise e).sk = c.sk := rfl
@[simp] theorem CoreState.raise_variant (e : ErrorCode) (c : CoreState) : (c.raise e).variant = c.variant := rfl
@[simp] theorem CoreState.raise_err (e : ErrorCode) (c : CoreState) : (c.raise e).err = e.code := rfl
@[simp] theorem CoreState.raise_data (e : ErrorCode) (c : CoreState) : (c.raise e).data = c.data := rfl

/-! ### `succeed` -/

@[simp] theorem CoreState.succeed_bufBytes (c : CoreState) : (c.succeed).bufBytes = c.bufBytes := rfl
@[simp] theorem CoreState.succeed_keylen (c : CoreState) : (c.succeed).keylen = c.keylen := rfl
@[simp] theorem CoreState.succeed_nblk (c : CoreState) : (c.succeed).nblk = c.nblk := rfl
@[simp] theorem CoreState.succeed_src (c : CoreState) : (c.succeed).src = c.src := rfl
@[simp] theorem CoreState.succeed_dst (c : CoreState) : (c.succeed).dst = c.dst := rfl
@[simp] theorem CoreState.succeed_key (c : CoreState) : (c.succeed).key = c.key := rfl
@[simp] theorem CoreState.succeed_sk (c : CoreState) : (c.succeed).sk = c.sk := rfl
@[simp] theorem CoreState.succeed_variant (c : CoreState) : (c.succeed).variant = c.variant := rfl
@[simp] theorem CoreState.succeed_err (c : CoreState) : (c.succeed).err = 0 := rfl
@[simp] theorem CoreState.succeed_data (c : CoreState) : (c.succeed).data = c.data := rfl

/-! ### `eraseKeys` -/

@[simp] theorem CoreState.eraseKeys_bufBytes (c : CoreState) : (c.eraseKeys).bufBytes = c.bufBytes := rfl
@[simp] theorem CoreState.eraseKeys_keylen (c : CoreState) : (c.eraseKeys).keylen = c.keylen := rfl
@[simp] theorem CoreState.eraseKeys_nblk (c : CoreState) : (c.eraseKeys).nblk = c.nblk := rfl
@[simp] theorem CoreState.eraseKeys_src (c : CoreState) : (c.eraseKeys).src = c.src := rfl
@[simp] theorem CoreState.eraseKeys_dst (c : CoreState) : (c.eraseKeys).dst = c.dst := rfl
@[simp] theorem CoreState.eraseKeys_key (c : CoreState) : (c.eraseKeys).key = Vector.replicate 8 0 := rfl
@[simp] theorem CoreState.eraseKeys_sk (c : CoreState) : (c.eraseKeys).sk = Vector.replicate 34 0 := rfl
@[simp] theorem CoreState.eraseKeys_variant (c : CoreState) : (c.eraseKeys).variant = 0 := rfl
@[simp] theorem CoreState.eraseKeys_err (c : CoreState) : (c.eraseKeys).err = c.err := rfl
@[simp] theorem CoreState.eraseKeys_data (c : CoreState) : (c.eraseKeys).data = c.data := rfl

/-! ### Register writes -/

@[simp] theorem CoreState.writeReg_keylen_eq (c : CoreState) (v : Word) :
    c.writeReg .keylen v = { c with keylen := v } := rfl
@[simp] theorem CoreState.writeReg_nblk_eq (c : CoreState) (v : Word) :
    c.writeReg .nblk v = { c with nblk := v } := rfl
@[simp] theorem CoreState.writeReg_src_eq (c : CoreState) (v : Word) :
    c.writeReg .src v = { c with src := v } := rfl
@[simp] theorem CoreState.writeReg_dst_eq (c : CoreState) (v : Word) :
    c.writeReg .dst v = { c with dst := v } := rfl
@[simp] theorem CoreState.writeReg_key_eq (c : CoreState) (j : Fin 8) (v : Word) :
    c.writeReg (.key j) v = { c with key := c.key.set j.val v } := rfl
@[simp] theorem CoreState.writeReg_cmd_eq (c : CoreState) (v : Word) : c.writeReg .cmd v = c := rfl
@[simp] theorem CoreState.writeReg_status_eq (c : CoreState) (v : Word) : c.writeReg .status v = c := rfl
@[simp] theorem CoreState.writeReg_reserved_eq (c : CoreState) (v : Word) : c.writeReg .reserved v = c := rfl

/-- A register write touches neither the subkeys, `VARIANT`, `ERR`, `DATA` nor the size of the buffer (R202). -/
theorem CoreState.writeReg_frame (c : CoreState) (r : Reg) (v : Word) :
    (c.writeReg r v).sk = c.sk ∧ (c.writeReg r v).variant = c.variant ∧ (c.writeReg r v).err = c.err ∧
      (c.writeReg r v).data = c.data ∧ (c.writeReg r v).bufBytes = c.bufBytes := by
  cases r <;> exact ⟨rfl, rfl, rfl, rfl, rfl⟩

/-! ### The whole state -/

@[simp] theorem State.withCore_core (s : State) (c : CoreState) : (s.withCore c).core = c := rfl
@[simp] theorem State.withCore_before (s : State) (c : CoreState) : (s.withCore c).before = s.before := rfl
@[simp] theorem State.withCore_after (s : State) (c : CoreState) : (s.withCore c).after = s.after := rfl
@[simp] theorem State.withCore_pending (s : State) (c : CoreState) : (s.withCore c).pending = s.pending := rfl
@[simp] theorem State.withCore_observed (s : State) (c : CoreState) : (s.withCore c).observed = s.observed := rfl
@[simp] theorem State.record_core (s : State) (r : Reading) : (s.record r).core = s.core := rfl
@[simp] theorem State.record_before (s : State) (r : Reading) : (s.record r).before = s.before := rfl
@[simp] theorem State.record_after (s : State) (r : Reading) : (s.record r).after = s.after := rfl
@[simp] theorem State.record_pending (s : State) (r : Reading) : (s.record r).pending = s.pending := rfl
@[simp] theorem State.record_observed (s : State) (r : Reading) : (s.record r).observed = r :: s.observed := rfl
@[simp] theorem State.withCore_core_self (s : State) : s.withCore s.core = s := rfl
@[simp] theorem State.withCore_withCore (s : State) (c d : CoreState) : (s.withCore c).withCore d = s.withCore d := rfl
@[simp] theorem State.withCore_index (s : State) (c : CoreState) : (s.withCore c).index = s.index := rfl
@[simp] theorem State.commit_ok (s : State) (c : CoreState) : s.commit (.ok c) = .next (s.withCore c) := rfl
@[simp] theorem State.commit_error (s : State) (f : Fault) : s.commit (.error f) = .fault f := rfl

/-- A command's outcome is a next state only as that of its copy. -/
theorem State.commit_eq_next_iff {s t : State} {x : Except Fault CoreState} :
    s.commit x = .next t ↔ ∃ c, x = .ok c ∧ t = s.withCore c := by
  cases x <;> simp [eq_comm]

/-- A command's outcome is a fault only as that of its copy. -/
theorem State.commit_eq_fault_iff {s : State} {x : Except Fault CoreState} {f : Fault} :
    s.commit x = .fault f ↔ x = .error f := by
  cases x <;> simp

end Sys2Proof.Machine
end

