-- ==== Sys2Proof/Laws/Platform.lean ====
section
/-!
SUPPORT. Laws/Platform.lean: bringing a copy in front (R40), and what the list of copies becomes when the copy in front is
replaced.
-/

namespace Sys2Proof.Machine

/-- What bringing the copy of index `k` in front answers, where it answers. -/
theorem State.focus_eq_some {s t : State} {k : Nat} (h : s.focus k = some t) :
    t.before = s.copies.take k ∧ s.copies[k]? = some t.core ∧ t.after = s.copies.drop (k + 1) ∧
      t.pending = s.pending ∧ t.observed = s.observed := by
  unfold State.focus at h
  split at h
  · cases h
  · rename_i c rest hd
    cases h
    have hk : k < s.copies.length := by
      by_contra hk
      rw [List.drop_eq_nil_of_le (not_lt.1 hk)] at hd
      cases hd
    have hcons := List.drop_eq_getElem_cons hk
    rw [hd] at hcons
    obtain ⟨h1, h2⟩ := List.cons.inj hcons
    exact ⟨rfl, by rw [List.getElem?_eq_getElem hk, h1], h2, rfl, rfl⟩

/-- The index in front is the one asked for. -/
theorem State.focus_index {s t : State} {k : Nat} (h : s.focus k = some t) : t.index = k := by
  obtain ⟨hb, hk, -⟩ := State.focus_eq_some h
  have : k < s.copies.length := (List.getElem?_eq_some_iff.1 hk).1
  simp [State.index, hb]
  omega

/-- Bringing a copy in front keeps the list of copies. -/
theorem State.focus_copies {s t : State} {k : Nat} (h : s.focus k = some t) : t.copies = s.copies := by
  obtain ⟨hb, hk, ha, -⟩ := State.focus_eq_some h
  obtain ⟨hlt, hget⟩ := List.getElem?_eq_some_iff.1 hk
  unfold State.copies at *
  rw [hb, ha, ← hget, ← List.drop_eq_getElem_cons hlt, List.take_append_drop]

/-- Bringing a copy in front fails exactly where there is none. -/
theorem State.focus_eq_none_iff {s : State} {k : Nat} : s.focus k = none ↔ s.copies.length ≤ k := by
  unfold State.focus
  split
  · rename_i hd
    exact ⟨fun _ => List.drop_eq_nil_iff.1 hd, fun _ => rfl⟩
  · rename_i hd
    refine ⟨nofun, fun h => ?_⟩
    rw [List.drop_eq_nil_of_le h] at hd
    cases hd

/-- The copy in front can always be brought in front: nothing changes. -/
theorem State.focus_index_self (s : State) : s.focus s.index = some s := by
  have : s.copies.drop s.index = s.core :: s.after := by simp [State.copies, State.index]
  unfold State.focus
  rw [this]
  simp [State.copies, State.index]

/-- The copies after the one in front was replaced. -/
theorem State.copies_withCore (s : State) (c : CoreState) : (s.withCore c).copies = s.copies.set s.index c := by
  simp [State.copies, State.index]

/-- The other copies are untouched where the one in front is replaced. -/
theorem State.copies_withCore_getElem?_of_ne {s : State} {c : CoreState} {j : Nat} (h : j ≠ s.index) :
    (s.withCore c).copies[j]? = s.copies[j]? := by
  rw [State.copies_withCore, List.getElem?_set_ne h.symm]

theorem State.length_copies_withCore (s : State) (c : CoreState) : (s.withCore c).copies.length = s.copies.length := by
  rw [State.copies_withCore, List.length_set]

/-- Every copy after the one in front was replaced is the new one or one that was there. -/
theorem State.mem_copies_withCore {s : State} {c d : CoreState} (h : d ∈ (s.withCore c).copies) :
    d = c ∨ d ∈ s.copies := by
  simp only [State.copies, State.withCore, List.mem_append, List.mem_cons] at h ⊢
  tauto

theorem State.core_mem_copies (s : State) : s.core ∈ s.copies := by
  simp [State.copies]

/-- What `NextIs` says of the state that performs the request. -/
theorem State.NextIs.facts {s t : State} {k : Nat} {op : HostOp} (h : s.NextIs k op t) :
    t.index = k ∧ t.copies = s.copies ∧ t.observed = s.observed ∧ s.copies[k]? = some t.core := by
  obtain ⟨rest, -, hf⟩ := h
  have hc := State.focus_copies hf
  obtain ⟨-, hk, -, -, ho⟩ := State.focus_eq_some hf
  exact ⟨State.focus_index hf, hc, ho, hk⟩

/-- A step with a request pending to a copy that exists is that request's operation on that copy. -/
theorem step_of_nextIs {s t : State} {k : Nat} {op : HostOp} (h : s.NextIs k op t) : step s = hostOp op t := by
  obtain ⟨rest, hp, hf⟩ := h
  simp [step, nextRequest, hp, hostRequest, hf]

/-- Every step that goes on is the idle step or that of a request to a copy that exists. -/
theorem step_eq_next_cases {s u : State} (h : step s = .next u) :
    (s.pending = [] ∧ u = s) ∨ ∃ k op t, s.NextIs k op t ∧ hostOp op t = .next u := by
  unfold step nextRequest at h
  split at h
  · rename_i hp
    cases h
    exact .inl ⟨hp, rfl⟩
  · rename_i r rest hp
    unfold hostRequest at h
    split at h
    · rename_i t hf
      exact .inr ⟨r.copy, r.op, t, ⟨rest, hp, hf⟩, h⟩
    · cases h

end Sys2Proof.Machine
end

