-- ==== Sys2Proof/Laws/Driver.lean ====
section
/-!
SUPPORT. Laws/Driver.lean: what the block loop and a transform command can do (R176 to R181), said once.
-/

namespace Sys2Proof.Machine

/-! ### The block loop -/

/-- The loop over `n + 1` blocks is the loop over the first `n` and then block `n` (R178). -/
theorem transformBlocks_succ (f : Block → Block) (n src dst : Nat) (m : Memory) :
    transformBlocks f (n + 1) src dst m =
      match transformBlocks f n src dst m with
      | .error e => .error e
      | .ok m1 =>
        match Memory.readBlock m1 (src + 16 * n) with
        | .error e => .error e
        | .ok blk => .ok (Memory.writeBlock m1 (dst + 16 * n) (f blk)) := by
  induction n generalizing src dst m with
  | zero =>
    simp only [transformBlocks, Nat.mul_zero, Nat.add_zero] <;> cases Memory.readBlock m src <;> rfl
  | succ n ih =>
    rw [transformBlocks]
    conv_rhs => rw [transformBlocks]
    cases Memory.readBlock m src with
    | error e => rfl
    | ok blk =>
      simp only
      rw [ih]
      have h1 : src + Config.blockBytes + 16 * n = src + 16 * (n + 1) := by
        show src + 16 + 16 * n = _
        omega
      have h2 : dst + Config.blockBytes + 16 * n = dst + 16 * (n + 1) := by
        show dst + 16 + 16 * n = _
        omega
      rw [h1, h2]

/-- The loop over `n + 1` blocks answers exactly where the loop over `n` does and block `n` can then be read. -/
theorem transformBlocks_succ_eq_ok {f : Block → Block} {n src dst : Nat} {m m' : Memory}
    (h : transformBlocks f (n + 1) src dst m = .ok m') :
    ∃ m1 blk, transformBlocks f n src dst m = .ok m1 ∧ Memory.readBlock m1 (src + 16 * n) = .ok blk ∧
      m' = Memory.writeBlock m1 (dst + 16 * n) (f blk) := by
  rw [transformBlocks_succ] at h
  split at h
  · cases h
  · rename_i m1 h1
    split at h
    · cases h
    · rename_i blk h2
      cases h
      exact ⟨m1, blk, h1, h2, rfl⟩

/-- The loop changes no byte outside its output range. -/
theorem transformBlocks_read_outside {f : Block → Block} {n src dst : Nat} {m m' : Memory}
    (h : transformBlocks f n src dst m = .ok m') {x : Nat} (hx : ¬ (dst ≤ x ∧ x < dst + 16 * n)) :
    Memory.read m' x = Memory.read m x := by
  induction n generalizing m' with
  | zero => cases h; rfl
  | succ n ih =>
    obtain ⟨m1, blk, h1, -, rfl⟩ := transformBlocks_succ_eq_ok h
    rw [Memory.read_writeBlock_of_not_mem (by omega)]
    exact ih h1 (by omega)

/-- After the loop every byte of its output range is written. -/
theorem transformBlocks_read_inside {f : Block → Block} {n src dst : Nat} {m m' : Memory}
    (h : transformBlocks f n src dst m = .ok m') {x : Nat} (hx : dst ≤ x ∧ x < dst + 16 * n) :
    (Memory.read m' x).isSome := by
  induction n generalizing m' with
  | zero => omega
  | succ n ih =>
    obtain ⟨m1, blk, h1, -, rfl⟩ := transformBlocks_succ_eq_ok h
    rw [Memory.read_writeBlock]
    split
    · rfl
    · exact ih h1 (by omega)

/-- The loop keeps the canonical form. -/
theorem transformBlocks_wf {f : Block → Block} {n src dst : Nat} {m m' : Memory}
    (h : transformBlocks f n src dst m = .ok m') (hm : Memory.wf m) : Memory.wf m' := by
  induction n generalizing m' with
  | zero => cases h; exact hm
  | succ n ih =>
    obtain ⟨m1, blk, h1, -, rfl⟩ := transformBlocks_succ_eq_ok h
    exact Memory.wf_writeBlock (ih h1) _ _

/-- What a memory lists after the loop was listed before or lies in the output range. -/
theorem transformBlocks_mem {f : Block → Block} {n src dst : Nat} {m m' : Memory}
    (h : transformBlocks f n src dst m = .ok m') {p : Host.Cell} (hp : p ∈ m') :
    (dst ≤ p.1 ∧ p.1 < dst + 16 * n) ∨ p ∈ m := by
  induction n generalizing m' with
  | zero => cases h; exact .inr hp
  | succ n ih =>
    obtain ⟨m1, blk, h1, -, rfl⟩ := transformBlocks_succ_eq_ok h
    rcases Memory.mem_writeBlock hp with hp | hp
    · exact .inl (by omega)
    · exact (ih h1 hp).imp_left fun h => by omega

/-- When the loop comes to block `n`, a byte of that block is written exactly where it was before the loop or lies in the
output of the blocks before it (R178). -/
theorem transformBlocks_isSome_iff {f : Block → Block} {n src dst i : Nat} {m m' : Memory}
    (h : transformBlocks f n src dst m = .ok m') (hi : i / 16 = n) :
    (Memory.read m' (src + i)).isSome ↔ Memory.ReadyAt m src dst i := by
  rw [Memory.ReadyAt, hi]
  by_cases hx : dst ≤ src + i ∧ src + i < dst + 16 * n
  · exact iff_of_true (transformBlocks_read_inside h hx) (.inr hx)
  · rw [transformBlocks_read_outside h hx]
    exact (or_iff_left hx).symm

/-- The loop answers where each input byte is written before it or by an earlier block (R57, R178). -/
theorem transformBlocks_total {f : Block → Block} {n src dst : Nat} {m : Memory}
    (h : ∀ i < 16 * n, Memory.ReadyAt m src dst i) :
    ∃ m', transformBlocks f n src dst m = .ok m' := by
  induction n with
  | zero => exact ⟨m, rfl⟩
  | succ n ih =>
    obtain ⟨m1, h1⟩ := ih fun i hi => h i (by omega)
    obtain ⟨blk, hb⟩ := Memory.exists_readBlock (m := m1) (a := src + 16 * n) fun i hi => by
      rw [Nat.add_assoc, transformBlocks_isSome_iff h1 (by omega)]
      exact h _ (by omega)
    rw [transformBlocks_succ, h1]
    simp only [hb]
    exact ⟨_, rfl⟩

/-- The loop stops at its first input byte that is written neither before it nor by an earlier block (R57, R178). -/
theorem transformBlocks_stops {f : Block → Block} {n src dst j : Nat} {m : Memory} (hj : j < 16 * n)
    (hn : ¬ Memory.ReadyAt m src dst j) (h : ∀ i < j, Memory.ReadyAt m src dst i) :
    transformBlocks f n src dst m = .error (.unwrittenData (src + j)) := by
  induction n with
  | zero => omega
  | succ n ih =>
    rw [transformBlocks_succ]
    by_cases hlt : j < 16 * n
    · rw [ih hlt]
    · obtain ⟨m1, h1⟩ := transformBlocks_total (f := f) (n := n) fun i hi => h i (by omega)
      have hb : Memory.readBlock m1 (src + 16 * n) = .error (.unwrittenData (src + j)) := by
        refine Memory.readBlock_eq_error_iff.2 ⟨j - 16 * n, by omega, ?_, ?_, fun i hi => ?_⟩
        · rw [show src + 16 * n + (j - 16 * n) = src + j by omega]
        · rw [show src + 16 * n + (j - 16 * n) = src + j by omega, ← Option.not_isSome_iff_eq_none,
            transformBlocks_isSome_iff h1 (by omega)]
          exact hn
        · rw [Nat.add_assoc, transformBlocks_isSome_iff h1 (by omega)]
          exact h _ (by omega)
      rw [h1]
      simp only [hb]

/-- Where the loop stops, it stops at the first input byte that is written neither before it nor by an earlier block. -/
theorem transformBlocks_eq_error {f : Block → Block} {n src dst : Nat} {m : Memory} {e : Fault}
    (h : transformBlocks f n src dst m = .error e) :
    ∃ j < 16 * n, e = .unwrittenData (src + j) ∧ ¬ Memory.ReadyAt m src dst j ∧
      ∀ i < j, Memory.ReadyAt m src dst i := by
  have hex : ∃ j, j < 16 * n ∧ ¬ Memory.ReadyAt m src dst j := by
    by_contra hno
    obtain ⟨m', hm⟩ := transformBlocks_total (f := f) fun i hi => not_not.1 fun hr => hno ⟨i, hi, hr⟩
    rw [hm] at h
    cases h
  obtain ⟨hj, hn⟩ := Nat.find_spec hex
  have hmin : ∀ i < Nat.find hex, Memory.ReadyAt m src dst i := fun i hi =>
    not_not.1 fun hr => Nat.find_min hex hi ⟨by omega, hr⟩
  rw [transformBlocks_stops hj hn hmin] at h
  cases h
  exact ⟨_, hj, rfl, hn, hmin⟩

/-! ### A transform command -/

/-- `VARIANT` names a class exactly where it is not 0 (R29). -/
theorem KeyClass.ofVariant_eq_none_iff {v : BitVec 2} : KeyClass.ofVariant v = none ↔ v = 0 := by
  revert v
  decide

@[simp] theorem KeyClass.ofVariant_variant (k : KeyClass) : KeyClass.ofVariant k.variant = some k := by
  cases k <;> rfl

@[simp] theorem KeyClass.ofVariant_zero : KeyClass.ofVariant 0 = none := rfl

/-- A `VARIANT` that is not 0 names a class. -/
theorem KeyClass.exists_ofVariant {v : BitVec 2} (h : v ≠ 0) : ∃ k, KeyClass.ofVariant v = some k :=
  Option.ne_none_iff_exists'.1 fun hn => h (KeyClass.ofVariant_eq_none_iff.1 hn)

/-- The bounds check as the spec writes it (R179). -/
theorem CoreState.inRange_iff (c : CoreState) :
    c.inRange = true ↔ c.nblk = 0 ∨ (c.src.toNat + 16 * c.nblk.toNat ≤ c.bufBytes ∧
      c.dst.toNat + 16 * c.nblk.toNat ≤ c.bufBytes) := by
  have h0 : c.nblk.toNat = 0 ↔ c.nblk = 0 := by
    constructor
    · intro h
      exact BitVec.eq_of_toNat_eq h
    · intro h
      rw [h]
      rfl
  rw [CoreState.inRange, Bool.or_eq_true, Bool.and_eq_true, decide_eq_true_eq, decide_eq_true_eq, decide_eq_true_eq]
  exact or_congr h0 Iff.rfl

/-- What a transform that runs does. -/
theorem CoreState.transform_runs {f : Vector DWord 34 → KeyClass → Block → Block} {c : CoreState} {k : KeyClass}
    (hk : KeyClass.ofVariant c.variant = some k) (hr : c.inRange = true) :
    c.transform f =
      match transformBlocks (f c.sk k) c.blockCount c.srcAddr c.dstAddr c.data with
      | .ok m => .ok (CoreState.succeed { c with data := m })
      | .error e => .error e := by
  unfold CoreState.transform
  rw [hk]
  simp only [hr, if_true] <;> split <;> simp_all

/-- A transform that runs and whose block loop answers completes with what the loop left (R176). -/
theorem CoreState.transform_of_ok {f : Vector DWord 34 → KeyClass → Block → Block} {c : CoreState} {k : KeyClass}
    {m : Memory} (hk : KeyClass.ofVariant c.variant = some k) (hr : c.inRange = true)
    (hm : transformBlocks (f c.sk k) c.blockCount c.srcAddr c.dstAddr c.data = .ok m) :
    c.transform f = .ok (CoreState.succeed { c with data := m }) := by
  rw [CoreState.transform_runs hk hr, hm]

/-- Everything a transform that answers can have done (R176): KeyNotSet, BufferRange, or its blocks. -/
theorem CoreState.transform_eq_ok_cases {f : Vector DWord 34 → KeyClass → Block → Block} {c d : CoreState}
    (h : c.transform f = .ok d) :
    (c.variant = 0 ∧ d = c.raise .keyNotSet) ∨
    (c.variant ≠ 0 ∧ c.inRange = false ∧ d = c.raise .bufferRange) ∨
    (∃ k m, KeyClass.ofVariant c.variant = some k ∧ c.inRange = true ∧
      transformBlocks (f c.sk k) c.blockCount c.srcAddr c.dstAddr c.data = .ok m ∧
      d = CoreState.succeed { c with data := m }) := by
  unfold CoreState.transform at h
  split at h
  · rename_i hk
    cases h
    exact .inl ⟨KeyClass.ofVariant_eq_none_iff.1 hk, rfl⟩
  · rename_i k hk
    have hv : c.variant ≠ 0 := fun hv => by rw [hv, KeyClass.ofVariant_zero] at hk; cases hk
    split at h
    · rename_i hr
      split at h
      · rename_i m hm
        cases h
        exact .inr (.inr ⟨k, m, hk, hr, hm, rfl⟩)
      · cases h
    · rename_i hr
      cases h
      exact .inr (.inl ⟨hv, by simpa using hr, rfl⟩)

/-- A transform stops only where it runs its blocks and one of them cannot be read. -/
theorem CoreState.transform_eq_error {f : Vector DWord 34 → KeyClass → Block → Block} {c : CoreState} {e : Fault}
    (h : c.transform f = .error e) :
    ∃ k, KeyClass.ofVariant c.variant = some k ∧ c.inRange = true ∧
      transformBlocks (f c.sk k) c.blockCount c.srcAddr c.dstAddr c.data = .error e := by
  unfold CoreState.transform at h
  split at h
  · cases h
  · rename_i k hk
    split at h
    · rename_i hr
      split at h
      · cases h
      · rename_i e' he
        cases h
        exact ⟨k, hk, hr, he⟩
    · cases h

/-! ### One block, step by step -/

/-- The working registers with the halves `x` and the cursor `c`. -/
def Work.of (x : DWord × DWord) (c : Nat) : Work := ⟨x.1, x.2, c⟩

theorem Work.load_eq (b : Block) (c : Nat) : Work.load b c = Work.of (b.hi, b.lo) c := rfl
theorem Work.of_c (x : DWord × DWord) (c : Nat) : (Work.of x c).c = c := rfl
theorem Work.of_store (x : DWord × DWord) (c : Nat) : (Work.of x c).store = Block.ofWords x.2 x.1 := rfl
theorem Work.of_up (x : DWord × DWord) (c : Nat) : (Work.of x c).up = Work.of x (c + 2) := rfl
theorem Work.of_down (x : DWord × DWord) (c : Nat) : (Work.of x c).down = Work.of x (c - 2) := rfl
theorem Work.of_whiten (x : DWord × DWord) (c : Nat) (a b : DWord) :
    (Work.of x c).whiten a b = Work.of (x.1 ^^^ a, x.2 ^^^ b) c := rfl
theorem encPair_of (sk : Vector DWord 34) (x : DWord × DWord) (c : Nat) :
    encPair sk (Work.of x c) = Work.of (pairStep x (subkeyAt sk c) (subkeyAt sk (c + 1))) (c + 2) := rfl
theorem encFL_of (sk : Vector DWord 34) (x : DWord × DWord) (c : Nat) :
    encFL sk (Work.of x c) = Work.of (layerStep x (subkeyAt sk c) (subkeyAt sk (c + 1))) (c + 2) := rfl
theorem decPair_of (sk : Vector DWord 34) (x : DWord × DWord) (c : Nat) :
    decPair sk (Work.of x c) = Work.of (pairStep x (subkeyAt sk c) (subkeyAt sk (c - 1))) (c - 2) := rfl
theorem decFL_of (sk : Vector DWord 34) (x : DWord × DWord) (c : Nat) :
    decFL sk (Work.of x c) = Work.of (layerStep x (subkeyAt sk c) (subkeyAt sk (c - 1))) (c - 2) := rfl

/-- Inside the subkey file the cursor reads its entry (R33). -/
theorem subkeyAt_eq (sk : Vector DWord 34) {c : Nat} (h : c < 34) : subkeyAt sk c = sk[c] := by
  simp [subkeyAt, Vector.getD, h]

/-- A Feistel pair is undone by the pair with its subkeys exchanged, on exchanged halves. -/
theorem pairStep_swap (x : DWord × DWord) (a b : DWord) :
    pairStep ((pairStep x a b).2, (pairStep x a b).1) b a = (x.2, x.1) := by
  simp [pairStep]

end Sys2Proof.Machine
end

