-- ==== Sys2Proof/Laws/Exec.lean ====
section
/-!
SUPPORT. Laws/Exec.lean: what a command can do, said once, and the laws of the register map.
-/

namespace Sys2Proof.Machine

/-! ### The register map (R70) -/

@[simp] theorem Reg.ofOffset_key (j : Fin 8) : Reg.ofOffset (0x020 + 4 * j.val) = .key j := by
  revert j
  decide

/-- The offsets that are no register of the block (R70). -/
theorem Reg.ofOffset_reserved {off : Nat} (h4 : off % 4 = 0) (h : off = 0x018 ∨ off = 0x01C ∨ 0x040 ≤ off) :
    Reg.ofOffset off = .reserved := by
  unfold Reg.ofOffset
  rw [if_neg (by omega), if_neg (by omega), if_neg (by omega), if_neg (by omega), if_neg (by omega), if_neg (by omega),
    dif_neg (by omega)]

/-- Only offset 0 is `CMD`. -/
theorem Reg.ofOffset_eq_cmd_iff {off : Nat} : Reg.ofOffset off = .cmd ↔ off = 0 := by
  unfold Reg.ofOffset
  repeat' split
  all_goals simp_all

theorem regAccessOk_iff {off width : Nat} :
    regAccessOk off width = true ↔ width = 4 ∧ off % 4 = 0 ∧ off < 0x100 := by
  simp [regAccessOk, Config.regBytes, Config.regBlockBytes, and_assoc]

theorem dataAccessOk_iff {n a width : Nat} : dataAccessOk n a width = true ↔ width = 1 ∧ a < n := by
  simp [dataAccessOk]

/-- A register write other than to `CMD`, in the contract, is the store of its register (R202). -/
theorem hostRegWrite_of_ne_cmd {off width : Nat} {v : Word} {s : State} (h : regAccessOk off width = true)
    (hr : Reg.ofOffset off ≠ .cmd) :
    hostRegWrite off width v s = .next (s.withCore (s.core.writeReg (Reg.ofOffset off) v)) := by
  unfold hostRegWrite
  rw [if_pos h]
  split
  · contradiction
  · rfl

/-- A `CMD` write in the contract runs its word (R26). -/
theorem hostRegWrite_cmd (v : Word) (s : State) : hostRegWrite 0x000 4 v s = runCommand v s := rfl

/-- A register read in the contract (R203). -/
theorem hostRegRead_ok {off width : Nat} {s : State} (h : regAccessOk off width = true) :
    hostRegRead off width s = .next (s.record (.reg s.index off (s.core.readReg (Reg.ofOffset off)))) := by
  unfold hostRegRead
  rw [if_pos h]

/-- A data write in the contract (R204). -/
theorem hostDataWrite_ok {a width : Nat} {b : Byte} {s : State} (h : dataAccessOk s.core.bufBytes a width = true) :
    hostDataWrite a width b s = .next (s.withCore { s.core with data := Memory.write s.core.data a b }) := by
  unfold hostDataWrite
  rw [if_pos h]

/-- A data read in the contract of a written byte (R204). -/
theorem hostDataRead_ok {a width : Nat} {b : Byte} {s : State} (h : dataAccessOk s.core.bufBytes a width = true)
    (hb : Memory.read s.core.data a = some b) :
    hostDataRead a width s = .next (s.record (.data s.index a b)) := by
  unfold hostDataRead
  rw [if_pos h, hb]

/-- A data read in the contract of an unwritten byte (R57). -/
theorem hostDataRead_unwritten {a width : Nat} {s : State} (h : dataAccessOk s.core.bufBytes a width = true)
    (hb : Memory.read s.core.data a = none) : hostDataRead a width s = .fault (.unwrittenData a) := by
  unfold hostDataRead
  rw [if_pos h, hb]

/-! ### Commands -/

theorem exec_nop (s : State) : exec .nop s = .next (s.withCore s.core.succeed) := rfl

theorem exec_clear (s : State) : exec .clear s = .next (s.withCore s.core.eraseKeys.succeed) := rfl

theorem exec_deriveSchedule (s : State) :
    exec .deriveSchedule s = .next (s.withCore s.core.deriveSchedule) := rfl

theorem exec_encryptBlocks (s : State) : exec .encryptBlocks s = s.commit (s.core.transform encBlock) := rfl

theorem exec_decryptBlocks (s : State) : exec .decryptBlocks s = s.commit (s.core.transform decBlock) := rfl

/-- Everything a command that answers can have done to its copy. -/
theorem exec_eq_next_cases {i : Instr} {s t : State} (h : exec i s = .next t) :
    ∃ c, t = s.withCore c ∧
      ((i = .nop ∧ c = s.core.succeed) ∨
       (i = .clear ∧ c = s.core.eraseKeys.succeed) ∨
       (i = .deriveSchedule ∧ c = s.core.deriveSchedule) ∨
       (∃ f, TransformCommand i f ∧ s.core.transform f = .ok c)) := by
  cases i with
  | nop => cases h; exact ⟨_, rfl, .inl ⟨rfl, rfl⟩⟩
  | clear => cases h; exact ⟨_, rfl, .inr (.inl ⟨rfl, rfl⟩)⟩
  | deriveSchedule => cases h; exact ⟨_, rfl, .inr (.inr (.inl ⟨rfl, rfl⟩))⟩
  | encryptBlocks =>
    obtain ⟨c, hc, rfl⟩ := State.commit_eq_next_iff.1 (show s.commit (s.core.transform encBlock) = .next t from h)
    exact ⟨c, rfl, .inr (.inr (.inr ⟨encBlock, .inl ⟨rfl, rfl⟩, hc⟩))⟩
  | decryptBlocks =>
    obtain ⟨c, hc, rfl⟩ := State.commit_eq_next_iff.1 (show s.commit (s.core.transform decBlock) = .next t from h)
    exact ⟨c, rfl, .inr (.inr (.inr ⟨decBlock, .inr ⟨rfl, rfl⟩, hc⟩))⟩

/-- A command that faults is a transform whose copy's transform faults. -/
theorem exec_eq_fault_cases {i : Instr} {s : State} {e : Fault} (h : exec i s = .fault e) :
    ∃ f, TransformCommand i f ∧ s.core.transform f = .error e := by
  cases i with
  | nop => cases h
  | clear => cases h
  | deriveSchedule => cases h
  | encryptBlocks => exact ⟨encBlock, .inl ⟨rfl, rfl⟩, State.commit_eq_fault_iff.1 h⟩
  | decryptBlocks => exact ⟨decBlock, .inr ⟨rfl, rfl⟩, State.commit_eq_fault_iff.1 h⟩

/-- A transform command is the transform of its copy. -/
theorem exec_of_transformCommand {i : Instr} {f : Vector DWord 34 → KeyClass → Block → Block}
    (h : TransformCommand i f) (s : State) : exec i s = s.commit (s.core.transform f) := by
  rcases h with ⟨rfl, rfl⟩ | ⟨rfl, rfl⟩ <;> rfl

/-- The two transform commands have their per-block functions. -/
theorem exists_transformCommand {i : Instr} (h : i = .encryptBlocks ∨ i = .decryptBlocks) :
    ∃ f, TransformCommand i f := by
  rcases h with rfl | rfl
  · exact ⟨encBlock, .inl ⟨rfl, rfl⟩⟩
  · exact ⟨decBlock, .inr ⟨rfl, rfl⟩⟩

/-- Everything DERIVE_SCHEDULE can do to its copy (R149). -/
theorem CoreState.deriveSchedule_cases (c : CoreState) :
    (KeyClass.ofLength c.keylen.toNat = none ∧ c.deriveSchedule = c.eraseKeys.raise .invalidKeyLength) ∨
    (∃ k, KeyClass.ofLength c.keylen.toNat = some k ∧
      c.deriveSchedule =
        CoreState.succeed { c with
          sk := subkeyFile k (secretsOf k c.key), variant := k.variant, key := Vector.replicate 8 0 }) := by
  unfold CoreState.deriveSchedule CoreState.keyLength
  split
  · rename_i h
    exact .inl ⟨h, rfl⟩
  · rename_i k h
    exact .inr ⟨k, h, rfl⟩

/-- DERIVE_SCHEDULE with an accepted length (R149). -/
theorem CoreState.deriveSchedule_of_length {c : CoreState} {k : KeyClass}
    (h : KeyClass.ofLength c.keylen.toNat = some k) :
    c.deriveSchedule =
      CoreState.succeed { c with
        sk := subkeyFile k (secretsOf k c.key), variant := k.variant, key := Vector.replicate 8 0 } := by
  rcases c.deriveSchedule_cases with ⟨h', -⟩ | ⟨k', h', e⟩
  · rw [h] at h'
    cases h'
  · rw [h] at h'
    cases h'
    exact e

/-- DERIVE_SCHEDULE with any other length (R149). -/
theorem CoreState.deriveSchedule_of_bad_length {c : CoreState} (h : KeyClass.ofLength c.keylen.toNat = none) :
    c.deriveSchedule = c.eraseKeys.raise .invalidKeyLength := by
  rcases c.deriveSchedule_cases with ⟨-, e⟩ | ⟨k', h', -⟩
  · exact e
  · rw [h] at h'
    cases h'

/-- An accepted key length is that of its class (R7). -/
theorem KeyClass.ofLength_eq_some_iff {len : Nat} {k : KeyClass} :
    KeyClass.ofLength len = some k ↔ len = k.keyBytes := by
  unfold KeyClass.ofLength KeyClass.keyBytes
  cases k <;> split_ifs <;> simp_all

/-- The subkey tables have `NSK` rows (R147, R148). -/
theorem subkeyTable_length (k : KeyClass) : (subkeyTable k).length = k.nsk := by
  cases k <;> decide

/-- Below `NSK` the subkey file holds the subkey of its row. -/
theorem subkeyFile_getElem_of_row {k : KeyClass} {s : Secrets} {i : Fin 34} {r : SubkeyRow}
    (h : (subkeyTable k)[i.val]? = some r) : (subkeyFile k s)[i.val] = s.subkey r := by
  simp [subkeyFile, h]

/-- At and beyond `NSK` the subkey file holds 0 (R33). -/
theorem subkeyFile_getElem_of_ge {k : KeyClass} {s : Secrets} {i : Fin 34} (h : k.nsk ≤ i.val) :
    (subkeyFile k s)[i.val] = 0 := by
  have : (subkeyTable k)[i.val]? = none := by
    rw [List.getElem?_eq_none_iff, subkeyTable_length]
    exact h
  simp [subkeyFile, this]

/-! ### What an access can do -/

/-- Everything a `CMD` write that answers can have done: a command, or the IllegalCommand outcome (R73, R205). -/
theorem runCommand_eq_next_cases {w : Word} {s t : State} (h : runCommand w s = .next t) :
    (∃ i, decode w = .ok i ∧ exec i s = .next t) ∨
    ((∃ e, decode w = .error e) ∧ t = s.withCore (s.core.raise .illegalCommand)) := by
  unfold runCommand at h
  split at h
  · rename_i i hi
    exact .inl ⟨i, hi, h⟩
  · rename_i e he
    cases h
    exact .inr ⟨⟨e, he⟩, rfl⟩

/-- Everything an access that answers can have done (R202 to R205, R260). -/
theorem hostOp_eq_next_cases {op : HostOp} {s t : State} (h : hostOp op s = .next t) :
    (∃ w, op = .regWrite 0x000 4 w ∧ runCommand w s = .next t) ∨
    (∃ off v, op = .regWrite off 4 v ∧ op.isCommand = false ∧ t = s.withCore (s.core.writeReg (Reg.ofOffset off) v)) ∨
    (∃ a b, op = .dataWrite a 1 b ∧ a < s.core.bufBytes ∧
      t = s.withCore { s.core with data := Memory.write s.core.data a b }) ∨
    (∃ off, op = .regRead off 4 ∧ t = s.record (.reg s.index off (s.core.readReg (Reg.ofOffset off)))) ∨
    (∃ a b, op = .dataRead a 1 ∧ Memory.read s.core.data a = some b ∧ t = s.record (.data s.index a b)) ∨
    (op = .reset ∧ t = s.withCore (CoreState.reset s.core.bufBytes)) := by
  cases op with
  | regWrite off width v =>
    simp only [hostOp, hostRegWrite] at h
    split at h
    · rename_i ha
      obtain ⟨rfl, -, -⟩ := regAccessOk_iff.1 ha
      by_cases hr : Reg.ofOffset off = .cmd
      · obtain rfl := Reg.ofOffset_eq_cmd_iff.1 hr
        exact .inl ⟨v, rfl, h⟩
      · refine .inr (.inl ⟨off, v, rfl, ?_, ?_⟩)
        · simpa [HostOp.isCommand] using fun h0 => hr (Reg.ofOffset_eq_cmd_iff.2 h0)
        · split at h
          · contradiction
          · cases h
            rfl
    · cases h
  | regRead off width =>
    simp only [hostOp, hostRegRead] at h
    split at h
    · rename_i ha
      obtain ⟨rfl, -, -⟩ := regAccessOk_iff.1 ha
      cases h
      exact .inr (.inr (.inr (.inl ⟨off, rfl, rfl⟩)))
    · cases h
  | dataWrite a width b =>
    simp only [hostOp, hostDataWrite] at h
    split at h
    · rename_i ha
      obtain ⟨rfl, hlt⟩ := dataAccessOk_iff.1 ha
      cases h
      exact .inr (.inr (.inl ⟨a, b, rfl, hlt, rfl⟩))
    · cases h
  | dataRead a width =>
    simp only [hostOp, hostDataRead] at h
    split at h
    · rename_i ha
      obtain ⟨rfl, -⟩ := dataAccessOk_iff.1 ha
      split at h
      · rename_i b hb
        cases h
        exact .inr (.inr (.inr (.inr (.inl ⟨a, b, rfl, hb, rfl⟩))))
      · cases h
    · cases h
  | reset =>
    cases h
    exact .inr (.inr (.inr (.inr (.inr ⟨rfl, rfl⟩))))

/-! ### The laws of decoding -/

/-- `encode` writes OP below a zero RSVD (R71). -/
theorem rsvdField_encode (i : Instr) : rsvdField (encode i) = 0 := by
  cases i <;> decide

theorem opField_encode (i : Instr) : opField (encode i) = encodeOp i := by
  cases i <;> decide

/-- The two fields of a command word make up the word. -/
theorem append_fields (w : Word) : rsvdField w ++ opField w = w := by
  apply BitVec.eq_of_getLsbD_eq
  intro i hi
  simp only [rsvdField, opField, BitVec.getLsbD_append, BitVec.getLsbD_extractLsb']
  by_cases h : i < 4
  · simp [h]
  · have h1 : 4 + (i - 4) = i := by omega
    have h2 : i - 4 < 28 := by omega
    simp [h, h1, h2]

/-- A selector selects a command exactly where it is that command's (R72). -/
theorem selector_eq_some_iff {op : BitVec 4} {i : Instr} : selector op.toNat = some i ↔ op = encodeOp i := by
  revert op
  cases i <;> decide

/-- A selector selects no command exactly where it is above 4 (R73). -/
theorem selector_eq_none_iff {op : BitVec 4} : selector op.toNat = none ↔ 4 < op.toNat := by
  revert op
  decide

end Sys2Proof.Machine
end

