-- ==== Sys2Proof/Laws/PerInstr.lean ====
section
/-!
SUPPORT. Laws/PerInstr.lean: the family `Encoding`, one lemma per command: its word is well formed, and its two fields are
the reserved zeros and the selector of R72.
-/

namespace Sys2Proof.Laws.Encoding

/-- The command word of `i` passes every check of R73, and its fields are RSVD = 0 and the selector of `i`. -/
def Statement (i : Instr) : Prop :=
  i.wf = true ∧ CommandWord.wf (encode i) = true ∧ rsvdField (encode i) = 0 ∧ opField (encode i) = encodeOp i ∧
    selector (encodeOp i).toNat = some i

theorem nop : Statement .nop := by unfold Statement; decide
theorem deriveSchedule : Statement .deriveSchedule := by unfold Statement; decide
theorem encryptBlocks : Statement .encryptBlocks := by unfold Statement; decide
theorem decryptBlocks : Statement .decryptBlocks := by unfold Statement; decide
theorem clear : Statement .clear := by unfold Statement; decide

end Sys2Proof.Laws.Encoding
end

