-- ==== Sys2Proof/Tests/Slice0.lean ====
section
/-!
SUPPORT. Tests/Slice0.lean: small tests against the vectors of 95_test_vectors.md (the id stands in each docstring), and for
every obligation with hypotheses a witness that meets them.
-/

namespace Sys2Proof.Tests

open Sys2Proof Sys2Proof.Machine

/-! ### Small states and views of an outcome -/

/-- Two copies with buffers of 64 bytes, right after reset; copy 0 in front. -/
def plat : State := State.resetWith 64 1

/-- The same platform with copy 1 in front. -/
def plat1 : State := { plat with before := [CoreState.reset 64], after := [] }

/-- `s` with one request pending. -/
def asks (s : State) (k : Nat) (op : HostOp) : State := { s with pending := [⟨k, op⟩] }

/-- `n` bytes 0, 1, 2, ... from the address `a`. -/
def ramp (a n : Nat) : Memory := (List.range n).map fun i => (a + i, BitVec.ofNat 8 i)

/-- The bytes of a 128-bit number at the addresses from `a`. -/
def bytesAt (a : Nat) (v : BitVec 128) : Memory :=
  (List.range 16).map fun i => (a + i, v.extractLsb' (120 - 8 * i) 8)

/-- The platform with a changed copy in front. -/
def platWith (c : CoreState) : State := plat.withCore c

/-- A copy with the given operands. -/
def core (variant : BitVec 2) (nblk src dst : Word) (data : Memory) : CoreState :=
  { CoreState.reset 64 with variant := variant, nblk := nblk, src := src, dst := dst, data := data }

/-- A copy with a key of the given length in the key buffer, and the operands of one block from 0 to 16. -/
def keyed (len : Word) (key : Vector Word 8) (data : Memory) : State :=
  platWith { CoreState.reset 64 with keylen := len, key := key, nblk := 1, dst := 16, data := data }

/-- The key of V-K3 in the key buffer; its first 16 and 24 bytes are the keys of V-K1 and V-K2. -/
def sampleKey : Vector Word 8 :=
  #v[0x01234567, 0x89ABCDEF, 0xFEDCBA98, 0x76543210, 0x00112233, 0x44556677, 0x8899AABB, 0xCCDDEEFF]

/-- The plaintext of the published vectors. -/
def sampleBlock : BitVec 128 := 0x0123456789ABCDEFFEDCBA9876543210

def andThen (o : Host.Outcome State Fault Refusal) (f : State → Host.Outcome State Fault Refusal) :
    Host.Outcome State Fault Refusal :=
  match o with
  | .next s => f s
  | .fault e => .fault e
  | .refused r => .refused r

def nextOf (o : Host.Outcome State Fault Refusal) : Option State :=
  match o with
  | .next s => some s
  | .fault _ => none
  | .refused _ => none

def faultOf (o : Host.Outcome State Fault Refusal) : Option Fault :=
  match o with
  | .next _ => none
  | .fault e => some e
  | .refused _ => none

def refusalOf (o : Host.Outcome State Fault Refusal) : Option Refusal :=
  match o with
  | .next _ => none
  | .fault _ => none
  | .refused r => some r

def statusOf (o : Host.Outcome State Fault Refusal) : Option Word := (nextOf o).map fun s => s.core.status

def skOf (o : Host.Outcome State Fault Refusal) (is : List Nat) : Option (List DWord) :=
  (nextOf o).map fun s => is.map fun i => s.core.sk.getD i 0

def dataOf (o : Host.Outcome State Fault Refusal) (a n : Nat) : Option (List (Option Byte)) :=
  (nextOf o).map fun s => (List.range n).map fun i => Memory.read s.core.data (a + i)

def expect (l : Memory) : Option (List (Option Byte)) := some (l.map fun p => some p.2)

theorem next_of_isSome {o : Host.Outcome State Fault Refusal} (h : (nextOf o).isSome = true) : ∃ t, o = .next t := by
  cases o with
  | next s => exact ⟨s, rfl⟩
  | fault e => cases h
  | refused r => cases h

/-! ### Well-formedness and decoding (R71 to R73, R75) -/

/-- The check of RSVD refuses 0x12 (V-C1k) and 0x80000002 (V-C1l). -/
theorem test_wf_reserved_bits : CommandWord.rsvdOk 0x00000012 = false ∧ CommandWord.wf 0x80000002 = false ∧
    decode 0x00000012 = .error (.reservedBits 1) ∧ decode 0x80000002 = .error (.reservedBits 0x8000000) := by decide

/-- The check of OP refuses 0x5 (V-C1j) and 0xF. -/
theorem test_wf_selector : CommandWord.opOk 0x00000005 = false ∧ CommandWord.wf 0x0000000F = false ∧
    decode 0x00000005 = .error (.reservedSelector 5) ∧ decode 0x0000000F = .error (.reservedSelector 15) := by decide

/-- Each of the five words of R72 passes both checks. -/
theorem test_wf_legal : CommandWord.wf 0 ∧ CommandWord.wf 1 ∧ CommandWord.wf 2 ∧ CommandWord.wf 3 ∧ CommandWord.wf 4 := by
  decide

theorem test_decode_nop : decode 0b00000000000000000000000000000000 = .ok .nop := by decide
theorem test_decode_derive : decode 0b00000000000000000000000000000001 = .ok .deriveSchedule := by decide
theorem test_decode_encrypt : decode 0b00000000000000000000000000000010 = .ok .encryptBlocks := by decide
theorem test_decode_decrypt : decode 0b00000000000000000000000000000011 = .ok .decryptBlocks := by decide
theorem test_decode_clear : decode 0b00000000000000000000000000000100 = .ok .clear := by decide

theorem test_table_words : decodeTableWord 32 3 = some .decryptBlocks ∧ decodeTableWord 32 0x80000002 = none := by decide

/-- From the reset state the very next step runs the placed word: DERIVE_SCHEDULE with `KEYLEN` = 0 (V-C2). -/
theorem test_first_step : statusOf (step (State.reset.withFetchWord 32 1)) = some 0x10 := by decide

/-! ### Tables, round function, FL, rotation -/

/-- V-T1, rows 0x80 and 0x92. -/
theorem test_tables : (sbox1 0x80, sbox2 0x80, sbox3 0x80, sbox4 0x80) = (0xAA, 0x55, 0x55, 0x82) ∧
    (sbox1 0x92, sbox2 0x92, sbox3 0x92, sbox4 0x92) = (0x00, 0x00, 0x00, 0xEB) := by decide

/-- V-F1: mixed lanes, and one bit in lane 7. -/
theorem test_roundF : roundF 0x0123456789ABCDEF 0 = 0xD7E110581AB139A3 ∧ roundF 0x0000000000000001 0 = 0xF2F2F2005ACA12A8 :=
  by decide

/-- V-FL1, the row of mixed operands. -/
theorem test_fl : fl 0x0123456789ABCDEF 0xFEDCBA9876543210 = 0xFEDCBA9889ABCDEF ∧
    flinv 0x0123456789ABCDEF 0xFEDCBA9876543210 = 0xFEDCBA987412B8DE := by decide

/-- V-R1, both sides of the shift at which the halves swap. -/
theorem test_rot128 : (let x : Pair := ⟨0x0123456789ABCDEF, 0xFEDCBA9876543210⟩
    (rot128Half x 63 .h, rot128Half x 64 .h, rot128Half x 65 .l, rot128Half x 77 .h, rot128Half x 127 .l)) =
    (0xFF6E5D4C3B2A1908, 0xFEDCBA9876543210, 0x02468ACF13579BDF, 0x97530ECA86420024, 0xFF6E5D4C3B2A1908) := by
  decide

/-! ### Commands -/

/-- V-C1m: NOP clears the error and keeps the schedule. -/
theorem test_nop : statusOf (exec .nop (platWith { core 1 0 0 0 [] with err := 3 })) = some 0x3 := by decide

/-- The example of R200. -/
theorem test_nop_no_key : statusOf (exec .nop (platWith { core 0 0 0 0 [] with err := 2 })) = some 0 := by decide

/-- V-C1n: CLEAR after a key. -/
theorem test_clear : statusOf (exec .clear (platWith { core 1 0 0 0 [] with key := sampleKey })) = some 0 := by decide

/-- V-KS1 and V-KS2: the half-used pairs of the 128-bit table, and the last rows of both. -/
theorem test_derive :
    skOf (exec .deriveSchedule (keyed 16 sampleKey [])) [2, 12, 13, 16, 25, 26] =
      some [0xAE71C3D55BA6BF1D, 0xD7E3A2D24814F2BF, 0x00123456789ABCDE, 0x97530ECA86420024, 0x5F8E8B492053CAFC, 0] ∧
    skOf (exec .deriveSchedule (keyed 24 sampleKey [])) [2, 4, 11, 19, 33] =
      some [0x8F3AFAC1CC974396, 0x9119A22AB33BFFF7, 0xF8E2D37CA3CEBEB0, 0x8001122334455667, 0xA1CB604C505BF1C5] := by
  decide

/-- V-C2: 272 is no length although its low byte is 16, and 33 is none. -/
theorem test_derive_lengths : statusOf (exec .deriveSchedule (keyed 0x110 sampleKey [])) = some 0x10 ∧
    statusOf (exec .deriveSchedule (keyed 33 sampleKey [])) = some 0x10 ∧
    statusOf (exec .deriveSchedule (keyed 32 sampleKey [])) = some 0x7 := by decide

/-- V-K1: the published 128-bit vector. -/
theorem test_encrypt :
    dataOf (andThen (exec .deriveSchedule (keyed 16 sampleKey (bytesAt 0 sampleBlock))) (exec .encryptBlocks)) 16 16 =
      expect (bytesAt 16 0x67673138549669730857065648EABE43) := by decide

/-- Program P4: overlapping ranges, a 24-byte key; block 1 reads what block 0 wrote. -/
theorem test_encrypt_overlap :
    dataOf (andThen (exec .deriveSchedule (platWith { CoreState.reset 40 with
        keylen := 24, key := sampleKey, nblk := 2, src := 0, dst := 8, data := ramp 0 32 })) (exec .encryptBlocks)) 8 32 =
      expect (bytesAt 8 0xE29B473D5A9A69F9BAB3A6DCD0F4142A ++ bytesAt 24 0x75FE6140CDEE53AF74B9DA8338641BEC) := by
  decide

/-- V-D1, the published 256-bit vector. -/
theorem test_decrypt :
    dataOf (andThen (exec .deriveSchedule (keyed 32 sampleKey (bytesAt 0 0x9ACC237DFF16D76C20EF7C919E3A7509)))
      (exec .decryptBlocks)) 16 16 = expect (bytesAt 16 sampleBlock) := by decide

/-- V-C1a, V-C1c, V-C1e, V-C1f, V-C1g: KeyNotSet first, then BufferRange on either range, without wrap-around. -/
theorem test_transform_errors :
    statusOf (exec .encryptBlocks (platWith (core 0 1 0 0 []))) = some 0x20 ∧
    statusOf (exec .encryptBlocks (platWith (core 0 1 0x100 0 []))) = some 0x20 ∧
    statusOf (exec .encryptBlocks (platWith (core 1 1 49 0 []))) = some 0x43 ∧
    statusOf (exec .decryptBlocks (platWith (core 1 1 0 49 []))) = some 0x43 ∧
    statusOf (exec .encryptBlocks (platWith (core 1 0x10000000 0 0 []))) = some 0x43 := by decide

/-! ### Host accesses (V-C3) and scripts -/

theorem test_access_refused :
    refusalOf (step (asks plat 0 (.regRead 0x002 4))) = some .hostAccessRefused ∧
    refusalOf (step (asks plat 0 (.regWrite 0x100 4 0))) = some .hostAccessRefused ∧
    refusalOf (step (asks plat 0 (.dataWrite 64 1 0))) = some .hostAccessRefused ∧
    faultOf (step (asks plat 0 (.dataRead 0 1))) = some (.unwrittenData 0) := by decide

theorem test_key_reads_zero :
    (nextOf (andThen (step (asks plat 0 (.regWrite 0x020 4 0x01234567))) fun s => step (asks s 0 (.regRead 0x020 4)))).map
      State.observed = some [.reg 0 0x020 0] := by decide

theorem test_status_write_ignored :
    (nextOf (andThen (step (asks plat 0 (.regWrite 0x004 4 0xFFFFFFFF))) fun s => step (asks s 0 (.regRead 0x004 4)))).map
      State.observed = some [.reg 0 0x004 0] := by decide

/-- The last register offset and the first beyond the block are those of the key words 55 and 56 (entry 15). -/
theorem test_script_long_key :
    (ScriptOp.derive (List.replicate 225 0)).expand[55]? = some (.regWrite 0x0FC 4 0) ∧
    (ScriptOp.derive (List.replicate 225 0)).expand[56]? = some (.regWrite 0x100 4 0) := by
  decide +kernel

/-- Rows 1 to 6 of the encoding of program P1. -/
theorem test_script_derive :
    (ScriptOp.derive ((bytesAt 0 sampleBlock).map Prod.snd)).expand =
      [.regWrite 0x020 4 0x01234567, .regWrite 0x024 4 0x89ABCDEF, .regWrite 0x028 4 0xFEDCBA98,
       .regWrite 0x02C 4 0x76543210, .regWrite 0x008 4 0x10, .regWrite 0x000 4 0x1] := by decide

/-! ### Witnesses: for each obligation with hypotheses, values that meet them -/

theorem nextIs0 (op : HostOp) : (asks plat 0 op).NextIs 0 op plat := ⟨[], rfl, rfl⟩
theorem nextIs1 (op : HostOp) : (asks plat 1 op).NextIs 1 op plat1 := ⟨[], rfl, rfl⟩

theorem witness_StepRunsTheDecodedCommand :
    ∃ (s t : State) (k : Nat) (w : Word) (i : Instr), s.NextIs k (.regWrite 0x000 4 w) t ∧ decode w = .ok i :=
  ⟨_, _, 1, 4, .clear, nextIs1 _, by decide⟩

theorem witness_PlacedWordIsTheNextCommand : decodeTableWord 32 0 = some .nop ∧ decodeTableWord 32 4 = some .clear := by decide

/-- Both kinds of illegal word, at the first and the last of each. -/
theorem witness_IllegalWordSetsErrAndNothingElse :
    ∀ n ∈ [0x5, 0xF, 0x10, 0x12, 0xFFFFFFFF],
      (∃ (s t : State) (k : Nat), s.NextIs k (.regWrite 0x000 4 (BitVec.ofNat 32 n)) t) ∧
        (rsvdField (BitVec.ofNat 32 n) ≠ 0 ∨ 4 < (opField (BitVec.ofNat 32 n)).toNat) :=
  fun n h => ⟨⟨_, _, _, nextIs0 _⟩, by revert n; decide⟩

theorem witness_BringingACopyInFrontChangesNothing : 1 < plat.copies.length ∧ plat.copies.length ≤ 2 := by decide

theorem witness_IdleStepChangesNothing : plat.pending = [] := rfl

/-- Every clause at its offsets, the key buffer and the reserved range at both ends. -/
theorem witness_RegisterWritesStore :
    ∀ off ∈ [0x004, 0x008, 0x00C, 0x010, 0x014, 0x018, 0x01C, 0x020, 0x03C, 0x040, 0x0FC],
      ∃ (s t : State) (k : Nat) (v : Word), s.NextIs k (.regWrite off 4 v) t :=
  fun _ _ => ⟨_, _, 1, 5, nextIs1 _⟩

/-- No offset (a multiple of 4 below 0x100) falls under two of the clauses, and with `CMD` they cover the whole block. -/
theorem witness_RegisterWritesStore_clauses :
    ∀ j < 64, let off := 4 * j
      (List.countP id [decide (off = 0x000), decide (off = 0x008), decide (off = 0x00C), decide (off = 0x010),
        decide (off = 0x014), decide (∃ j : Fin 8, off = 0x020 + 4 * j.val),
        decide (off = 0x004 ∨ off = 0x018 ∨ off = 0x01C ∨ (0x040 ≤ off ∧ off < 0x100))]) = 1 := by decide

theorem witness_RegisterReadsReturn :
    ∀ off ∈ [0x000, 0x004, 0x008, 0x00C, 0x010, 0x014, 0x018, 0x01C, 0x020, 0x03C, 0x040, 0x0FC],
      (∃ (s t : State) (k : Nat), s.NextIs k (.regRead off 4) t) ∧ off % 4 = 0 ∧ off < 0x100 :=
  fun off h => ⟨⟨_, _, _, nextIs1 _⟩, by revert off; decide⟩

/-- The same for the clauses of a read. -/
theorem witness_RegisterReadsReturn_clauses :
    ∀ j < 64, let off := 4 * j
      (List.countP id [decide (off = 0x004), decide (off = 0x008), decide (off = 0x00C), decide (off = 0x010),
        decide (off = 0x014), decide (off = 0x000 ∨ off = 0x018 ∨ off = 0x01C ∨ 0x020 ≤ off)]) = 1 := by decide

theorem witness_DataWriteStoresOneByte :
    ∃ (s t : State) (k : Nat), s.NextIs k (.dataWrite 63 1 0xAB) t ∧ 63 < t.core.bufBytes := ⟨_, _, 1, nextIs1 _, by decide⟩

/-- The platform with copy 0 in front and 64 bytes written; also the state a request to copy 0 of it leads to. -/
def full : State := platWith (core 1 1 0 48 (ramp 0 64))

theorem nextIsFull (op : HostOp) : (asks full 0 op).NextIs 0 op full := ⟨[], rfl, rfl⟩

/-- Both clauses, at the last address of the buffer. -/
theorem witness_DataReadReturnsOrFaults :
    (∃ (s t : State) (k : Nat), s.NextIs k (.dataRead 63 1) t ∧ 63 < t.core.bufBytes ∧
      Memory.read t.core.data 63 = some 63) ∧
    (∃ (s t : State) (k : Nat), s.NextIs k (.dataRead 63 1) t ∧ 63 < t.core.bufBytes ∧
      Memory.read t.core.data 63 = none) :=
  ⟨⟨_, _, 0, nextIsFull _, by decide⟩, ⟨_, _, 0, nextIs0 _, by decide⟩⟩

/-- Each kind of access just outside the contract, and a copy just beyond the last. -/
theorem witness_OutOfContractAccessIsRefused :
    (∀ op ∈ [HostOp.regWrite 0x100 4 0, .regWrite 0x008 2 0, .regRead 0x002 4, .dataWrite 64 1 0, .dataRead 0 4],
      ∃ (s t : State) (k : Nat), s.NextIs k op t ∧ op.inContract t.core.bufBytes = false) ∧
    (∃ (s : State) (r : Request) (rest : List Request), s.pending = r :: rest ∧ s.copies.length ≤ r.copy) :=
  ⟨fun op h => ⟨_, _, 0, nextIs0 op, by revert op; decide⟩, ⟨asks plat 2 .reset, _, _, rfl, by decide⟩⟩

theorem witness_ReadsHaveNoSideEffect :
    ∃ (s t u v : State) (k : Nat) (op : HostOp), s.NextIs k op t ∧ op.isRead = true ∧ step s = .next u ∧
      step { u with pending := ⟨k, op⟩ :: u.pending } = .next v :=
  ⟨asks full 0 (.dataRead 63 1), full, _, _, 0, _, nextIsFull _, rfl, rfl, rfl⟩

theorem witness_ResetStateIsAsTheSpecSays : ∃ c, c ∈ State.reset.copies := ⟨_, List.mem_append_right _ List.mem_cons_self⟩

/-- A key of five bytes (R77): two key words, the second filled with 0; both ends of the two read clauses. -/
theorem witness_ScriptLinesAreTheirAccesses :
    (ScriptOp.derive [1, 2, 3, 4, 5]).expand = [.regWrite 0x020 4 0x01020304, .regWrite 0x024 4 0x05000000,
      .regWrite 0x008 4 5, .regWrite 0x000 4 1] ∧
    (ScriptOp.rb 7 2).expand = [.dataRead 7 1, .dataRead 8 1] ∧
    (ScriptOp.db 7 [1, 2]).expand = [.dataWrite 7 1 1, .dataWrite 8 1 2] := by decide

theorem witness_DerivedSecretsByFeistelSteps :
    ⟨.kl, 0, .h⟩ ∈ subkeyTable .k128 ∧ ⟨.ka, 111, .l⟩ ∈ subkeyTable .k128 := by decide

theorem witness_ResetClearsTheCopy : ∃ (s t : State) (k : Nat), s.NextIs k .reset t := ⟨_, _, 0, nextIsFull _⟩

/-- The shifts at the ends of both ranges. -/
theorem witness_RotationInTwoHalves :
    ∀ p ∈ [((1 : Nat), (63 : Nat), (65 : Nat), (127 : Nat))], 0 < p.1 ∧ p.1 < 64 ∧ 0 < p.2.1 ∧ p.2.1 < 64 ∧ 64 < p.2.2.1 ∧
      p.2.2.1 < 128 ∧ 64 < p.2.2.2 ∧ p.2.2.2 < 128 := by decide

theorem witness_DeriveRejectsOtherLengths :
    ∀ n ∈ [0, 15, 17, 23, 25, 31, 33, 0x110, 0xFFFFFFFF],
      let s := keyed (BitVec.ofNat 32 n) sampleKey []
      s.core.keylen ≠ 16 ∧ s.core.keylen ≠ 24 ∧ s.core.keylen ≠ 32 := by decide

/-- Every class; the first and last row of each table, and the first and last entry beyond the shorter one. -/
theorem witness_DeriveExpandsTheKey :
    (keyed 16 sampleKey []).core.keylen.toNat = KeyClass.k128.keyBytes ∧
    (keyed 24 sampleKey []).core.keylen.toNat = KeyClass.k192.keyBytes ∧
    (keyed 32 sampleKey []).core.keylen.toNat = KeyClass.k256.keyBytes ∧
    (subkeyTable .k128)[0]? = some ⟨.kl, 0, .h⟩ ∧ (subkeyTable .k128)[25]? = some ⟨.ka, 111, .l⟩ ∧
    (subkeyTable .k192)[33]? = some ⟨.kb, 111, .l⟩ ∧ (subkeyTable .k256)[4]? = some ⟨.kr, 15, .h⟩ ∧
    KeyClass.k128.nsk ≤ 26 ∧ KeyClass.k128.nsk ≤ 33 := by decide

theorem witness_ScheduleLengthFollowsFromTheKeyLength :
    ∀ n ∈ [16, 24, 32], ∃ s t : State, s.core.keylen = BitVec.ofNat 32 n ∧ exec .deriveSchedule s = .next t ∧
      t.core.err = 0 := by
  intro n h
  refine ⟨keyed (BitVec.ofNat 32 n) sampleKey [], _, rfl, rfl, ?_⟩
  revert n
  decide

/-- A key buffer that differs from the sample key in every byte from the 16th on. -/
theorem witness_DeriveReadsOnlyTheKeyBytesBelowKeylen :
    ∃ (s : State) (key : Vector Word 8), key ≠ s.core.key ∧
      ∀ i : Fin 32, i.val < s.core.keylen.toNat → keyByte key i = keyByte s.core.key i :=
  ⟨keyed 16 sampleKey [], #v[0x01234567, 0x89ABCDEF, 0xFEDCBA98, 0x76543210, 1, 2, 3, 4], by decide⟩

/-- The key of V-K2 followed by the complement of its last 8 bytes. -/
theorem witness_ComplementedLongKeyGivesTheShorterSchedule :
    ∃ s t u : State, (∀ i : Fin 32, (h : 24 ≤ i.val) →
      keyByte s.core.key i = ~~~ keyByte s.core.key ⟨i.val - 8, by omega⟩) ∧
    exec .deriveSchedule { s with core := { s.core with keylen := 24 } } = .next t ∧
    exec .deriveSchedule { s with core := { s.core with keylen := 32 } } = .next u :=
  ⟨keyed 0 #v[0x01234567, 0x89ABCDEF, 0xFEDCBA98, 0x76543210, 0x00112233, 0x44556677, 0xFFEEDDCC, 0xBBAA9988] [],
    _, _, by decide, rfl, rfl⟩

theorem witness_LaneProductsNeverCarry : byteOf 7 (laneMask 0) = 1 ∧ byteOf 3 (laneMask 0) ≠ 1 := by decide

theorem witness_TransformWithoutScheduleRaisesKeyNotSet : plat.core.variant = 0 := rfl

/-- Each range one byte beyond the buffer. -/
theorem witness_TransformOutsideTheBufferRaisesBufferRange :
    ∀ c ∈ [core 1 1 49 0 [], core 2 1 0 49 [], core 3 0x10000000 0 0 []], c.variant ≠ 0 ∧ c.nblk ≠ 0 ∧
      (c.bufBytes < c.src.toNat + 16 * c.nblk.toNat ∨ c.bufBytes < c.dst.toNat + 16 * c.nblk.toNat) := by decide

theorem witness_TransformOfNoBlockOnlySetsErr :
    (core 1 0 0xFFFFFFFF 0xFFFFFFFF []).nblk = 0 ∧ (core 1 0 0xFFFFFFFF 0xFFFFFFFF []).variant ≠ 0 ∧
      (core 0 0 0 0 []).nblk = 0 ∧ (core 0 0 0 0 []).variant = 0 := by decide

/-- Two blocks from 0 to 16 with only the first 16 bytes written: block 1 reads what block 0 wrote (R178). -/
def chained : CoreState := core 1 2 0 16 (ramp 0 16)

/-- The ranges end exactly at the end of the buffer (V-C1d), and the input of a later block is written by an earlier one. -/
theorem witness_TransformCompletes :
    full.core.TransformRuns ∧ full.core.InputReady ∧ (core 3 1 48 0 (ramp 48 16)).TransformRuns ∧
      (core 3 1 48 0 (ramp 48 16)).InputReady ∧ chained.TransformRuns ∧ chained.InputReady ∧
      ¬ chained.InputWritten := by decide

theorem witness_TransformMapsEveryBlock :
    TransformCommand .encryptBlocks encBlock ∧ TransformCommand .decryptBlocks decBlock ∧ full.core.TransformRuns ∧
      full.core.InputWritten ∧ full.core.InPlaceOrDisjoint ∧ 0 < full.core.blockCount ∧
      (core 1 4 0 0 (ramp 0 64)).InPlaceOrDisjoint ∧ (core 1 2 32 0 (ramp 32 32)).InPlaceOrDisjoint :=
  ⟨.inl ⟨rfl, rfl⟩, .inr ⟨rfl, rfl⟩, by decide⟩

theorem witness_TransformIsBlockSequential :
    ∃ (s t : State), TransformCommand .encryptBlocks encBlock ∧ s.core.TransformRuns ∧ s.core.nblk.toNat = 0 + 1 ∧
      exec .encryptBlocks s = .next t :=
  have h : ∃ t, exec .encryptBlocks full = .next t := next_of_isSome (by decide)
  h.elim fun t ht => ⟨full, t, .inl ⟨rfl, rfl⟩, by decide, by decide, ht⟩

theorem witness_InPlaceBufferRoundTrip :
    ∃ s : State, s.Inv ∧ s.core.TransformRuns ∧ s.core.InputWritten ∧ s.core.src = s.core.dst ∧ s.core.nblk = 4 :=
  ⟨platWith (core 2 4 0 0 (ramp 0 64)), by decide⟩

/-- The second clause; the third at the first and the last byte of a block, in a later block, and in overlapping ranges where
the byte before is one an earlier block writes; the last clause at a byte of a later block. -/
theorem witness_CommandsStopOnlyOnUnwrittenInput :
    exec .decryptBlocks (platWith (core 1 1 0 0 [])) = .fault (.unwrittenData 0) ∧
    (∀ p ∈ [(core 1 1 32 0 (ramp 32 0), 0), (core 1 1 32 0 (ramp 32 15), 15), (core 2 2 0 0 (ramp 0 20), 20),
        (core 1 3 0 8 (ramp 0 16), 24)],
      p.1.TransformRuns ∧ p.2 < p.1.byteCount ∧ ¬ p.1.InputByteReady p.2 ∧ ∀ l < p.2, p.1.InputByteReady l) ∧
    (core 2 2 0 0 (ramp 0 20)).InPlaceOrDisjoint ∧ Memory.read (core 2 2 0 0 (ramp 0 20)).data (0 + 20) = none :=
  ⟨rfl, by decide⟩

theorem witness_AnErrorWritesNoData :
    ∃ (s t : State), exec .encryptBlocks s = .next t ∧ t.core.err ≠ 0 := ⟨plat, _, rfl, by decide⟩

theorem witness_WhatCommandsLeaveUnchanged : ∃ (s t : State), exec .nop s = .next t := ⟨full, _, rfl⟩

/-- A command word of every kind answers, with each of the five codes. -/
theorem witness_OnlyCommandsWriteErr_codes :
    ∀ p ∈ [(0, plat, 0), (1, keyed 24 sampleKey [], 0), (1, plat, 1), (2, plat, 2), (3, platWith (core 1 1 49 0 []), 4),
        (3, full, 0), (4, full, 0), (0x12, full, 3)],
      (nextOf (runCommand (BitVec.ofNat 32 p.1) p.2.1)).map (fun t => t.core.err.toNat) = some p.2.2 := by decide

theorem witness_OnlyCommandsWriteErr :
    ∃ (s t u : State) (k : Nat) (op : HostOp), s.NextIs k op t ∧ op.isCommand = false ∧ op ≠ .reset ∧ step s = .next u :=
  ⟨asks plat 1 (.regWrite 0x004 4 7), plat1, _, 1, _, nextIs1 _, by decide, by decide, rfl⟩

theorem witness_CopiesAreIndependent :
    (∃ (s t u : State) (k : Nat) (op : HostOp), s.NextIs k op t ∧ step s = .next u ∧ 0 ≠ k) ∧
    (∃ (s s' t : State), s ≠ s' ∧ s.core = s'.core ∧ exec .clear s = .next t) :=
  ⟨⟨asks plat 1 (.regWrite 0x000 4 4), plat1, _, 1, _, nextIs1 _, rfl, by decide⟩,
    ⟨plat, State.resetWith 64 0, _, by decide, rfl, rfl⟩⟩

/-- Two states with different keys that the host cannot tell apart. -/
theorem witness_AccessesRevealNoKeyMaterial :
    ∃ (s s' t u : State) (k : Nat) (op : HostOp), s ≠ s' ∧ s.NextIs k op t ∧ op.isCommand = false ∧
      s.hideKeys = s'.hideKeys ∧ step s = .next u :=
  ⟨asks plat 0 (.regRead 0x020 4), asks (platWith { CoreState.reset 64 with key := sampleKey }) 0 (.regRead 0x020 4), plat, _,
    0, _, by decide, nextIs0 _, by decide, by decide, rfl⟩

/-- A `CMD` write of ENCRYPT_BLOCKS with its input written, one whose later block reads what the first one wrote, and a read of
a written byte. -/
theorem witness_AnsweredAccessesStepOn :
    (∃ (s t : State) (k : Nat), s.NextIs k (.regWrite 0x000 4 2) t ∧ (HostOp.regWrite 0x000 4 2).Answered t.core) ∧
    (HostOp.regWrite 0x000 4 2).Answered chained ∧
    (∃ (s t : State) (k : Nat), s.NextIs k (.dataRead 63 1) t ∧ (HostOp.dataRead 63 1).Answered t.core) := by
  refine ⟨⟨_, full, 0, nextIsFull _, rfl, nofun, fun _ _ _ _ _ _ _ _ => by decide⟩,
    ⟨rfl, nofun, fun _ _ _ _ _ _ _ _ => by decide⟩, ⟨_, full, 0, nextIsFull _, by decide, fun a w h => ?_, nofun⟩⟩
  cases h
  decide

theorem witness_EveryStepKeepsThePlatformInvariant : ∃ s t : State, s.Inv ∧ step s = .next t :=
  ⟨asks full 0 (.dataWrite 5 1 0xFF), _, by decide, rfl⟩

end Sys2Proof.Tests
end

/-! PROOFS. The invariant of the platform (R9, R30, R33, R38): each operation on a copy keeps it, hence each access and
each step does. -/

namespace Sys2Proof.Machine

/-! ### Operations on a copy -/

/-- Every result code is one of R30. -/
theorem ErrorCode.code_toNat_le (e : ErrorCode) : e.code.toNat ≤ 4 := by
  cases e <;> decide

theorem CoreState.Inv.raise {c : CoreState} (h : c.Inv) (e : ErrorCode) : (c.raise e).Inv := by
  obtain ⟨hbuf, hwf, hmem, -, hsk⟩ := h
  exact ⟨hbuf, hwf, hmem, e.code_toNat_le, hsk⟩

theorem CoreState.Inv.succeed {c : CoreState} (h : c.Inv) : c.succeed.Inv := h.raise .ok

/-- New key material is as good as its subkeys beyond the schedule are 0 (R33). -/
theorem CoreState.Inv.withKeys {c : CoreState} (h : c.Inv) {sk : Vector DWord 34} {v : BitVec 2} (key : Vector Word 8)
    (hsk : ∀ i : Fin 34, nskOf v ≤ i.val → sk[i.val] = 0) :
    CoreState.Inv { c with sk := sk, variant := v, key := key } := by
  obtain ⟨hbuf, hwf, hmem, herr, -⟩ := h
  exact ⟨hbuf, hwf, hmem, herr, hsk⟩

/-- New data is as good as it is canonical and inside the buffer (R38). -/
theorem CoreState.Inv.withData {c : CoreState} (h : c.Inv) {m : Memory} (hwf : Memory.wf m)
    (hmem : ∀ p ∈ m, p.1 < c.bufBytes) : CoreState.Inv { c with data := m } := by
  obtain ⟨hbuf, -, -, herr, hsk⟩ := h
  exact ⟨hbuf, hwf, hmem, herr, hsk⟩

theorem CoreState.Inv.eraseKeys {c : CoreState} (h : c.Inv) : c.eraseKeys.Inv :=
  h.withKeys _ fun i _ => Vector.getElem_replicate i.isLt

theorem CoreState.Inv.writeReg {c : CoreState} (h : c.Inv) (r : Reg) (v : Word) : (c.writeReg r v).Inv := by
  obtain ⟨hsk, hvar, herr, hdata, hbuf⟩ := c.writeReg_frame r v
  unfold CoreState.Inv
  rw [hsk, hvar, herr, hdata, hbuf]
  exact h

/-- A byte stored inside the buffer (R204). -/
theorem CoreState.Inv.writeByte {c : CoreState} (h : c.Inv) {a : Nat} (ha : a < c.bufBytes) (b : Byte) :
    CoreState.Inv { c with data := Memory.write c.data a b } := by
  have ⟨_, hwf, hmem, _, _⟩ := h
  refine h.withData (Memory.wf_write hwf a b) fun p hp => ?_
  obtain rfl | hp := Memory.mem_write hp
  · exact ha
  · exact hmem p hp

/-- Only the size of the buffer is left of a copy that is reset (R260). -/
theorem CoreState.inv_reset {n : Nat} (h : 16 ≤ n) : (CoreState.reset n).Inv :=
  ⟨h, List.Pairwise.nil, nofun, Nat.zero_le _, fun i _ => Vector.getElem_replicate i.isLt⟩

/-- The schedule of a class has as many subkeys as its `VARIANT` says (R32). -/
@[simp] theorem nskOf_variant (k : KeyClass) : nskOf k.variant = k.nsk := by
  simp [nskOf]

theorem CoreState.Inv.deriveSchedule {c : CoreState} (h : c.Inv) : c.deriveSchedule.Inv := by
  obtain ⟨-, hd⟩ | ⟨k, -, hd⟩ := c.deriveSchedule_cases
  · rw [hd]
    exact h.eraseKeys.raise _
  · rw [hd]
    have hbeyond : ∀ i : Fin 34, nskOf k.variant ≤ i.val → (subkeyFile k (secretsOf k c.key))[i.val] = 0 :=
      fun i hi => subkeyFile_getElem_of_ge (nskOf_variant k ▸ hi)
    exact (h.withKeys _ hbeyond).succeed

/-- An output range in bounds ends inside the buffer (R179); one of no bytes holds no address. -/
theorem CoreState.lt_bufBytes_of_inOutput {c : CoreState} (hr : c.inRange = true) {a : Nat} (ha : c.InOutput a) :
    a < c.bufBytes := by
  obtain ⟨hlo, hhi⟩ := ha
  simp only [CoreState.dstAddr, CoreState.byteCount, CoreState.blockCount, Config.blockBytes] at hlo hhi
  obtain h0 | ⟨-, hdst⟩ := c.inRange_iff.1 hr
  · have hn : c.nblk.toNat = 0 := by simp [h0]
    omega
  · omega

theorem CoreState.Inv.transform {f : Vector DWord 34 → KeyClass → Block → Block} {c d : CoreState} (h : c.Inv)
    (hd : c.transform f = .ok d) : d.Inv := by
  obtain ⟨-, rfl⟩ | ⟨-, -, rfl⟩ | ⟨k, m, -, hr, hm, rfl⟩ := CoreState.transform_eq_ok_cases hd
  · exact h.raise _
  · exact h.raise _
  · have ⟨_, hwf, hmem, _, _⟩ := h
    refine (h.withData (transformBlocks_wf hm hwf) fun p hp => ?_).succeed
    obtain hout | hold := transformBlocks_mem hm hp
    · exact CoreState.lt_bufBytes_of_inOutput hr hout
    · exact hmem p hold

/-! ### Accesses and steps -/

/-- The platform's invariant asks of the copy in front no more than the copy's own. -/
theorem State.Inv.withCore {s : State} {c : CoreState} (h : s.Inv) (hc : c.Inv) : (s.withCore c).Inv := by
  intro d hd
  obtain rfl | hd := State.mem_copies_withCore hd
  · exact hc
  · exact h d hd

theorem State.Inv.core {s : State} (h : s.Inv) : s.core.Inv := h _ s.core_mem_copies

theorem exec_keeps_inv {i : Instr} {s t : State} (h : s.Inv) (ht : exec i s = .next t) : t.Inv := by
  obtain ⟨c, rfl, hc⟩ := exec_eq_next_cases ht
  refine h.withCore ?_
  obtain ⟨-, rfl⟩ | ⟨-, rfl⟩ | ⟨-, rfl⟩ | ⟨f, -, hf⟩ := hc
  case inl => exact h.core.succeed
  case inr.inl => exact h.core.eraseKeys.succeed
  case inr.inr.inl => exact h.core.deriveSchedule
  case inr.inr.inr => exact h.core.transform hf

theorem runCommand_keeps_inv {w : Word} {s t : State} (h : s.Inv) (ht : runCommand w s = .next t) : t.Inv := by
  obtain ⟨i, -, hi⟩ | ⟨-, rfl⟩ := runCommand_eq_next_cases ht
  · exact exec_keeps_inv h hi
  · exact h.withCore (h.core.raise _)

theorem hostOp_keeps_inv {op : HostOp} {s t : State} (h : s.Inv) (ht : hostOp op s = .next t) : t.Inv := by
  have hcore := h.core
  have ⟨hbuf, _, _, _, _⟩ := hcore
  obtain ⟨w, -, hw⟩ | ⟨off, v, -, -, rfl⟩ | ⟨a, b, -, ha, rfl⟩ | ⟨off, -, rfl⟩ | ⟨a, b, -, -, rfl⟩ | ⟨-, rfl⟩ :=
    hostOp_eq_next_cases ht
  · exact runCommand_keeps_inv h hw
  · exact h.withCore (hcore.writeReg _ v)
  · exact h.withCore (hcore.writeByte ha b)
  · exact h
  · exact h
  · exact h.withCore (CoreState.inv_reset hbuf)

/-- Settles O53: bringing a copy in front keeps the copies, and the access then keeps the invariant. -/
theorem everyStepKeepsThePlatformInvariant : Obligations.EveryStepKeepsThePlatformInvariant := by
  intro s u hs hu
  obtain ⟨-, rfl⟩ | ⟨k, op, t, hnext, hop⟩ := step_eq_next_cases hu
  · exact hs
  · obtain ⟨-, hcopies, -, -⟩ := hnext.facts
    have ht : t.Inv := fun c hc => hs c (hcopies ▸ hc)
    exact hostOp_keeps_inv ht hop

end Sys2Proof.Machine

/-! PROOFS. The state and its copies (R26 to R31, R40, R236): what a command leaves unchanged of its copy, that it
depends on that copy alone, and that an access touches no copy but the addressed one. -/

namespace Sys2Proof.Machine

/-! ### What a command leaves unchanged of its copy -/

/-- DERIVE_SCHEDULE writes the key material and `ERR` only (R149). -/
theorem CoreState.deriveSchedule_frame (c : CoreState) :
    ∃ sk v key e, c.deriveSchedule = { c with sk := sk, variant := v, key := key, err := e } := by
  obtain ⟨-, h⟩ | ⟨k, -, h⟩ := c.deriveSchedule_cases
  · exact ⟨_, _, _, _, h⟩
  · exact ⟨_, _, _, _, h⟩

/-- A transform writes `DATA` and `ERR` only (R176, R177). -/
theorem CoreState.transform_frame {f : Vector DWord 34 → KeyClass → Block → Block} {c d : CoreState}
    (h : c.transform f = .ok d) : ∃ m e, d = { c with data := m, err := e } := by
  obtain ⟨-, h⟩ | ⟨-, -, h⟩ | ⟨k, m, -, -, -, h⟩ := CoreState.transform_eq_ok_cases h
  · exact ⟨c.data, _, h⟩
  · exact ⟨c.data, _, h⟩
  · exact ⟨m, _, h⟩

/-- Settles O48: each command's copy is the old one with the fields written out that the command may change. -/
theorem whatCommandsLeaveUnchanged : Obligations.WhatCommandsLeaveUnchanged := by
  intro i s t h
  obtain ⟨c, rfl, hc⟩ := exec_eq_next_cases h
  obtain ⟨rfl, rfl⟩ | ⟨rfl, rfl⟩ | ⟨rfl, rfl⟩ | ⟨f, hf, hd⟩ := hc
  case inl => exact ⟨⟨_, rfl, rfl, rfl, rfl, rfl, rfl⟩, fun _ _ => ⟨rfl, rfl, rfl⟩, fun _ _ => rfl⟩
  case inr.inl => exact ⟨⟨_, rfl, rfl, rfl, rfl, rfl, rfl⟩, fun _ hclear => absurd rfl hclear, fun _ _ => rfl⟩
  case inr.inr.inl =>
    obtain ⟨sk, v, key, e, hd⟩ := s.core.deriveSchedule_frame
    rw [hd]
    exact ⟨⟨_, rfl, rfl, rfl, rfl, rfl, rfl⟩, fun hderive => absurd rfl hderive, fun _ _ => rfl⟩
  case inr.inr.inr =>
    obtain ⟨m, e, rfl⟩ := CoreState.transform_frame hd
    refine ⟨⟨_, rfl, rfl, rfl, rfl, rfl, rfl⟩, fun _ _ => ⟨rfl, rfl, rfl⟩, fun henc hdec => ?_⟩
    obtain ⟨hi, -⟩ | ⟨hi, -⟩ := hf
    · exact absurd hi henc
    · exact absurd hi hdec

/-! ### The copies of the platform -/

/-- Settles O7: the frame of `State.focus`, and where it answers `none`. -/
theorem bringingACopyInFrontChangesNothing : Obligations.BringingACopyInFrontChangesNothing := by
  intro s k
  refine ⟨fun hk => ?_, State.focus_eq_none_iff.2⟩
  have hsome : s.focus k ≠ none := fun hnone => absurd (State.focus_eq_none_iff.1 hnone) (not_le.2 hk)
  obtain ⟨t, ht⟩ := Option.ne_none_iff_exists'.1 hsome
  obtain ⟨-, hcore, -, hpending, hobserved⟩ := State.focus_eq_some ht
  exact ⟨t, ht, State.focus_copies ht, State.focus_index ht, hcore, hpending, hobserved⟩

/-- A command is a function of the copy in front, committed to the platform (R40). -/
theorem exists_exec_eq_commit (i : Instr) :
    ∃ onCopy : CoreState → Except Fault CoreState, ∀ s, exec i s = s.commit (onCopy s.core) := by
  cases i with
  | nop => exact ⟨fun c => .ok c.succeed, exec_nop⟩
  | deriveSchedule => exact ⟨fun c => .ok c.deriveSchedule, exec_deriveSchedule⟩
  | encryptBlocks => exact ⟨fun c => c.transform encBlock, exec_encryptBlocks⟩
  | decryptBlocks => exact ⟨fun c => c.transform decBlock, exec_decryptBlocks⟩
  | clear => exact ⟨fun c => .ok c.eraseKeys.succeed, exec_clear⟩

/-- A command on two platforms with the same copy in front does the same to both (R40). -/
theorem exec_of_core_eq {i : Instr} {s s' t : State} (hcore : s.core = s'.core) (h : exec i s = .next t) :
    exec i s' = .next (s'.withCore t.core) := by
  obtain ⟨onCopy, hexec⟩ := exists_exec_eq_commit i
  rw [hexec, State.commit_eq_next_iff] at h
  obtain ⟨c, hc, rfl⟩ := h
  rw [hexec, ← hcore, hc, State.commit_ok, State.withCore_core]

/-- A `CMD` write replaces the copy in front and nothing else. -/
theorem runCommand_eq_withCore {w : Word} {s t : State} (h : runCommand w s = .next t) : ∃ c, t = s.withCore c := by
  obtain ⟨i, -, hi⟩ | ⟨-, ht⟩ := runCommand_eq_next_cases h
  · obtain ⟨c, ht, -⟩ := exec_eq_next_cases hi
    exact ⟨c, ht⟩
  · exact ⟨_, ht⟩

/-- An access replaces at most the copy in front: a read replaces it by itself (R40, R60). -/
theorem hostOp_copies {op : HostOp} {s t : State} (h : hostOp op s = .next t) :
    ∃ c, t.copies = (s.withCore c).copies := by
  obtain ⟨w, -, hw⟩ | ⟨off, v, -, -, rfl⟩ | ⟨a, b, -, -, rfl⟩ | ⟨off, -, rfl⟩ | ⟨a, b, -, -, rfl⟩ | ⟨-, rfl⟩ :=
    hostOp_eq_next_cases h
  · obtain ⟨c, rfl⟩ := runCommand_eq_withCore hw
    exact ⟨c, rfl⟩
  · exact ⟨_, rfl⟩
  · exact ⟨_, rfl⟩
  · exact ⟨s.core, rfl⟩
  · exact ⟨s.core, rfl⟩
  · exact ⟨_, rfl⟩

/-- Settles O50: a step replaces at most the copy brought in front, and a command is a function of that copy. -/
theorem copiesAreIndependent : Obligations.CopiesAreIndependent := by
  refine ⟨fun s t u k op hnext hu => ?_, fun _ _ _ _ => exec_of_core_eq⟩
  obtain ⟨hindex, hcopies, -, -⟩ := hnext.facts
  obtain ⟨c, hc⟩ := hostOp_copies (step_of_nextIs hnext ▸ hu)
  rw [hc, ← hcopies]
  exact ⟨t.length_copies_withCore c, fun j hj => State.copies_withCore_getElem?_of_ne (hindex ▸ hj)⟩

/-! ### Single steps -/

/-- A word that decodes runs its command (R73). -/
theorem runCommand_of_decode {w : Word} {i : Instr} (h : decode w = .ok i) (s : State) :
    runCommand w s = exec i s := by
  simp [runCommand, h]

/-- Settles O4: the step is the `CMD` write on the addressed copy, and that write runs the decoded command. -/
theorem stepRunsTheDecodedCommand : Obligations.StepRunsTheDecodedCommand := by
  intro s t k w i hnext hdecode
  calc step s = hostOp (.regWrite 0x000 4 w) t := step_of_nextIs hnext
    _ = runCommand w t := hostRegWrite_cmd w t
    _ = exec i t := runCommand_of_decode hdecode t

/-- Settles O8: with no request pending the next request is none. -/
theorem idleStepChangesNothing : Obligations.IdleStepChangesNothing := by
  intro s hidle
  simp [step, nextRequest, hidle]

/-! ### `STATUS` -/

/-- The number of a concatenation: the upper part counts in units of the lower part's range (R27). -/
theorem toNat_append_eq_mul_add {m n : Nat} (x : BitVec m) (y : BitVec n) :
    (x ++ y).toNat = x.toNat * 2 ^ n + y.toNat := by
  rw [BitVec.toNat_append, ← Nat.shiftLeft_add_eq_or_of_lt y.isLt, Nat.shiftLeft_eq]

/-- The fields of `STATUS` at their weights (R27). -/
theorem CoreState.status_toNat (c : CoreState) :
    c.status.toNat = c.keySet.toNat + 2 * c.variant.toNat + 16 * c.err.toNat + 256 * c.busy.toNat := by
  simp only [CoreState.status, toNat_append_eq_mul_add, BitVec.ofNat_eq_ofNat, BitVec.toNat_ofNat, Nat.zero_mod]
  omega

/-- A schedule is established exactly where `VARIANT` is not 0 (R28, R29). -/
theorem CoreState.keySet_eq_one_iff (c : CoreState) : c.keySet = 1 ↔ c.variant ≠ 0 := by
  by_cases h : c.variant = 0 <;> simp [CoreState.keySet, h]

/-- Settles O11: the weights of the fields, the meaning of `KEY_SET`, and `BUSY`, which is 0 by definition. -/
theorem statusWordIsTheSumOfItsFields : Obligations.StatusWordIsTheSumOfItsFields :=
  fun c => ⟨c.status_toNat, c.keySet_eq_one_iff, rfl⟩

end Sys2Proof.Machine

/-! PROOFS. Memory and host accesses (R25, R50 to R64): the key buffer's bytes, accesses inside and outside the contract,
what a read leaves alone, where a command stops, and that accesses other than commands are blind to key material. -/

namespace Sys2Proof.Machine

/-! ### The key buffer (R25, R54) -/

/-- The bytes of two 32-bit words in a row: those of the first, then those of the second (R11, R25). -/
theorem byteOf_append (i : Fin 8) (a b : Word) :
    byteOf i (a ++ b) =
      if h : i.val < 4 then byteOfWord ⟨i.val, h⟩ a else byteOfWord ⟨i.val - 4, by omega⟩ b := by
  apply BitVec.eq_of_getLsbD_eq
  intro j hj
  by_cases h : i.val < 4
  · have hhigh : ¬ 56 - 8 * i.val + j < 32 := by omega
    have hindex : 56 - 8 * i.val + j - 32 = 24 - 8 * i.val + j := by omega
    simp only [dif_pos h, byteOf, byteOfWord, BitVec.getLsbD_extractLsb', BitVec.getLsbD_append, if_neg hhigh, hindex]
  · have hlow : 56 - 8 * i.val + j < 32 := by omega
    have hindex : 56 - 8 * i.val + j = 24 - 8 * (i.val - 4) + j := by omega
    simp only [dif_neg h, byteOf, byteOfWord, BitVec.getLsbD_extractLsb', BitVec.getLsbD_append, if_pos hlow, ← hindex]

/-- The j-th 64 bits of the key are two words of the key buffer in a row. -/
theorem keyDWord_eq_append (key : Vector Word 8) (j : Fin 4) :
    keyDWord key j = key[2 * j.val] ++ key[2 * j.val + 1] := by
  apply eq_of_byteOf_eq
  intro i
  rw [keyDWord, byteOf_be64, byteOf_append, keyByte]
  by_cases h : i.val < 4
  · have hword : (8 * j.val + i.val) / 4 = 2 * j.val := by omega
    have hbyte : (8 * j.val + i.val) % 4 = i.val := by omega
    simp [h, hword, hbyte]
  · have hword : (8 * j.val + i.val) / 4 = 2 * j.val + 1 := by omega
    have hbyte : (8 * j.val + i.val) % 4 = i.val - 4 := by omega
    simp [h, hword, hbyte]

/-- Settles O23: the four halves at j = 0 to 3. -/
theorem keyHalvesAreTheKeyWordsInOrder : Obligations.KeyHalvesAreTheKeyWordsInOrder :=
  fun key => ⟨keyDWord_eq_append key 0, keyDWord_eq_append key 1, keyDWord_eq_append key 2, keyDWord_eq_append key 3⟩

/-! ### The contract of host accesses (R58, R206) -/

/-- Outside the contract every kind of access is refused (R206). -/
theorem hostOp_refused_of_not_inContract {op : HostOp} {s : State} (h : op.inContract s.core.bufBytes = false) :
    hostOp op s = .refused .hostAccessRefused := by
  cases op with
  | regWrite off width v => exact if_neg (Bool.eq_false_iff.1 h)
  | regRead off width => exact if_neg (Bool.eq_false_iff.1 h)
  | dataWrite a width b => exact if_neg (Bool.eq_false_iff.1 h)
  | dataRead a width => exact if_neg (Bool.eq_false_iff.1 h)
  | reset => cases h

/-- An access that is answered is inside the contract. -/
theorem inContract_of_hostOp_eq_next {op : HostOp} {s t : State} (h : hostOp op s = .next t) :
    op.inContract s.core.bufBytes = true := by
  by_contra hout
  rw [hostOp_refused_of_not_inContract (Bool.eq_false_iff.2 hout)] at h
  cases h

/-- Settles O14: the refusal of the access itself, the contract of each kind, and the request that finds no copy. -/
theorem outOfContractAccessIsRefused : Obligations.OutOfContractAccessIsRefused := by
  refine ⟨fun s t k op hnext hout => ?_, fun _ _ _ _ => regAccessOk_iff, fun _ _ _ => regAccessOk_iff,
    fun _ _ _ _ => dataAccessOk_iff, fun _ _ _ => dataAccessOk_iff, fun s r rest hpending hcopy => ?_⟩
  · rw [step_of_nextIs hnext, hostOp_refused_of_not_inContract hout]
  · have hfocus : State.focus { s with pending := rest } r.copy = none := State.focus_eq_none_iff.2 hcopy
    simp [step, nextRequest, hpending, hostRequest, hfocus]

/-! ### A placed command word (R68) -/

/-- The placed word is the next request, and the copy in front performs it. -/
theorem State.withFetchWord_nextIs (s : State) (nbits w : Nat) :
    (s.withFetchWord nbits w).NextIs s.index (.regWrite 0x000 4 (BitVec.ofNat 32 (w % 2 ^ nbits))) s :=
  ⟨s.pending, rfl, s.focus_index_self⟩

/-- A word of the opcode table decodes as a command word does (R71, R73). -/
theorem decode_of_decodeTableWord {nbits w : Nat} {i : Instr} (h : decodeTableWord nbits w = some i) :
    decode (BitVec.ofNat 32 (w % 2 ^ nbits)) = .ok i := by
  unfold decodeTableWord at h
  split at h
  · split at h
    · rename_i i' hdecode
      cases h
      exact hdecode
    · cases h
  · cases h

/-- Settles O5: the placed word is a `CMD` write to the copy in front, and such a step runs its command. -/
theorem placedWordIsTheNextCommand : Obligations.PlacedWordIsTheNextCommand :=
  fun s w i h => stepRunsTheDecodedCommand _ s s.index _ i (s.withFetchWord_nextIs 32 w) (decode_of_decodeTableWord h)

/-! ### Reads (R60) -/

/-- A read that is answered records one reading and does nothing else, and done again it records the same (R203, R204). -/
theorem hostOp_of_isRead {op : HostOp} {s u : State} (hread : op.isRead = true) (h : hostOp op s = .next u) :
    ∃ r, u = s.record r ∧ hostOp op u = .next (u.record r) := by
  have hok := inContract_of_hostOp_eq_next h
  obtain ⟨w, rfl, -⟩ | ⟨off, v, rfl, -, -⟩ | ⟨a, b, rfl, -, -⟩ | ⟨off, rfl, rfl⟩ | ⟨a, b, rfl, hb, rfl⟩ | ⟨rfl, -⟩ :=
    hostOp_eq_next_cases h
  case inr.inr.inr.inl => exact ⟨_, rfl, hostRegRead_ok hok⟩
  case inr.inr.inr.inr.inl => exact ⟨_, rfl, hostDataRead_ok hok hb⟩
  all_goals cases hread

/-- Settles O15: the copies are those of the state that only records, and the same read finds the same copy. -/
theorem readsHaveNoSideEffect : Obligations.ReadsHaveNoSideEffect := by
  intro s t u k op hnext hread hu
  obtain ⟨hindex, hcopies, hobserved, -⟩ := hnext.facts
  rw [step_of_nextIs hnext] at hu
  obtain ⟨r, rfl, hrepeat⟩ := hostOp_of_isRead hread hu
  refine ⟨hcopies, rfl, r, by rw [State.record_observed, hobserved], fun v hv => ?_⟩
  have hagain : State.NextIs { t.record r with pending := ⟨k, op⟩ :: t.pending } k op (t.record r) :=
    ⟨t.pending, rfl, hindex ▸ (t.record r).focus_index_self⟩
  rw [State.record_pending, step_of_nextIs hagain, hrepeat] at hv
  cases hv
  rfl

/-! ### Where commands stop (R57, R178, R229) -/

/-- A command is never refused (R229). -/
theorem exec_ne_refused (i : Instr) (s : State) (r : Refusal) : exec i s ≠ .refused r := by
  obtain ⟨onCopy, hexec⟩ := exists_exec_eq_commit i
  rw [hexec]
  cases onCopy s.core <;> nofun

/-- A copy whose transform faults runs it, and an input byte is not ready (R57, R178). -/
theorem CoreState.transform_eq_error_facts {f : Vector DWord 34 → KeyClass → Block → Block} {c : CoreState} {e : Fault}
    (h : c.transform f = .error e) :
    c.TransformRuns ∧ ∃ j < c.byteCount, e = .unwrittenData (c.srcAddr + j) ∧ ¬ c.InputByteReady j := by
  obtain ⟨k, hk, hrange, hblocks⟩ := CoreState.transform_eq_error h
  have hvariant : c.variant ≠ 0 := fun h0 => by simp [KeyClass.ofVariant_eq_none_iff.2 h0] at hk
  obtain ⟨j, hj, he, hready, -⟩ := transformBlocks_eq_error hblocks
  exact ⟨⟨hvariant, hrange⟩, j, hj, he, hready⟩

/-- A transform that runs faults at the first input byte that is not ready. -/
theorem exec_faults_at_first_not_ready {i : Instr} {s : State} {j : Nat} (hi : i = .encryptBlocks ∨ i = .decryptBlocks)
    (hruns : s.core.TransformRuns) (hj : j < s.core.byteCount) (hnot : ¬ s.core.InputByteReady j)
    (hfirst : ∀ l < j, s.core.InputByteReady l) :
    exec i s = .fault (.unwrittenData (s.core.srcAddr + j)) := by
  obtain ⟨f, hf⟩ := exists_transformCommand hi
  obtain ⟨hvariant, hrange⟩ := hruns
  obtain ⟨k, hk⟩ := KeyClass.exists_ofVariant hvariant
  rw [exec_of_transformCommand hf, CoreState.transform_runs hk hrange, transformBlocks_stops hj hnot hfirst,
    State.commit_error]

/-- Up to an input byte that is not ready there is a first one. -/
theorem CoreState.exists_first_not_ready {c : CoreState} {j : Nat} (h : ¬ c.InputByteReady j) :
    ∃ l ≤ j, ¬ c.InputByteReady l ∧ ∀ l' < l, c.InputByteReady l' := by
  have hex : ∃ l, ¬ c.InputByteReady l := ⟨j, h⟩
  exact ⟨Nat.find hex, Nat.find_min' hex h, Nat.find_spec hex, fun l' hl' => not_not.1 (Nat.find_min hex hl')⟩

/-- Where the ranges are the same or do not meet, no earlier block writes a later input byte (R62). -/
theorem CoreState.not_inputByteReady_of_unwritten {c : CoreState} {j : Nat} (hranges : c.InPlaceOrDisjoint)
    (hj : j < c.byteCount) (hnone : Memory.read c.data (c.srcAddr + j) = none) : ¬ c.InputByteReady j := by
  rintro (hsome | ⟨hlow, hhigh⟩)
  · simp [hnone] at hsome
  · obtain hsame | hbelow | habove := hranges <;> omega

/-- Settles O46: the faults of a copy's transform, the first byte that is not ready, and ranges without overlap. -/
theorem commandsStopOnlyOnUnwrittenInput : Obligations.CommandsStopOnlyOnUnwrittenInput := by
  refine ⟨exec_ne_refused, fun i s e h => ?_, fun i s j hi hruns hj hnot => ?_,
    fun s j => CoreState.not_inputByteReady_of_unwritten⟩
  · obtain ⟨f, hf, he⟩ := exec_eq_fault_cases h
    exact ⟨hf.imp And.left And.left, CoreState.transform_eq_error_facts he⟩
  · obtain ⟨l, hl, hnl, hfirst⟩ := CoreState.exists_first_not_ready hnot
    exact ⟨⟨_, exec_faults_at_first_not_ready hi hruns (lt_of_le_of_lt hl hj) hnl hfirst⟩,
      exec_faults_at_first_not_ready hi hruns hj hnot⟩

/-! ### Accesses that are answered (R57, R58) -/

/-- A command answers where a transform that runs finds every input byte ready: it can stop in no other way. -/
theorem exec_answers {i : Instr} {s : State}
    (h : ∀ f, TransformCommand i f → s.core.TransformRuns → s.core.InputReady) : ∃ t, exec i s = .next t := by
  cases hexec : exec i s with
  | next t => exact ⟨t, rfl⟩
  | fault e =>
    obtain ⟨f, hf, he⟩ := exec_eq_fault_cases hexec
    obtain ⟨hruns, j, hj, -, hnot⟩ := CoreState.transform_eq_error_facts he
    exact absurd (h f hf hruns j hj) hnot
  | refused r => exact absurd hexec (exec_ne_refused i s r)

/-- A `CMD` write answers where the command it decodes to does; an illegal word always does (R205). -/
theorem runCommand_answers {w : Word} {s : State} (h : ∀ i, decode w = .ok i → ∃ t, exec i s = .next t) :
    ∃ t, runCommand w s = .next t := by
  unfold runCommand
  split
  · exact h _ ‹_›
  · exact ⟨_, rfl⟩

/-- An access that is `HostOp.Answered` is answered: the kinds of access one by one. -/
theorem HostOp.Answered.exists_next {op : HostOp} {s : State} (h : op.Answered s.core) : ∃ t, hostOp op s = .next t := by
  obtain ⟨hok, hwritten, hready⟩ := h
  cases op with
  | regWrite off width v =>
    by_cases hcmd : off = 0
    · obtain ⟨rfl, -, -⟩ := regAccessOk_iff.1 hok
      subst hcmd
      exact runCommand_answers fun i hdecode => exec_answers fun f hf => hready _ v i f rfl hdecode hf
    · exact ⟨_, hostRegWrite_of_ne_cmd hok (mt Reg.ofOffset_eq_cmd_iff.1 hcmd)⟩
  | regRead off width => exact ⟨_, hostRegRead_ok hok⟩
  | dataWrite a width b => exact ⟨_, hostDataWrite_ok hok⟩
  | dataRead a width =>
    obtain ⟨b, hb⟩ := Option.isSome_iff_exists.1 (hwritten a width rfl)
    exact ⟨_, hostDataRead_ok hok hb⟩
  | reset => exact ⟨_, rfl⟩

/-- Settles O52: the step is the access on the addressed copy, and that access is answered. -/
theorem answeredAccessesStepOn : Obligations.AnsweredAccessesStepOn := by
  intro s t k op hnext hanswered
  obtain ⟨u, hu⟩ := hanswered.exists_next
  exact ⟨u, (step_of_nextIs hnext).trans hu⟩

/-! ### Key material and the host (R64, R234) -/

/-- No register reads differently where the keys are blanked out (R25, R203). -/
@[simp] theorem CoreState.readReg_hideKeys (c : CoreState) (r : Reg) : c.hideKeys.readReg r = c.readReg r := by
  cases r <;> rfl

@[simp] theorem CoreState.hideKeys_bufBytes (c : CoreState) : c.hideKeys.bufBytes = c.bufBytes := rfl

@[simp] theorem CoreState.hideKeys_data (c : CoreState) : c.hideKeys.data = c.data := rfl

/-- The same register write keeps copies that differ in keys only so: a key word it stores is a key (R25, R202). -/
theorem CoreState.hideKeys_writeReg_congr {c c' : CoreState} (h : c.hideKeys = c'.hideKeys) (r : Reg) (v : Word) :
    (c.writeReg r v).hideKeys = (c'.writeReg r v).hideKeys := by
  have hblank : ∀ d : CoreState, (d.writeReg r v).hideKeys = (d.hideKeys.writeReg r v).hideKeys := fun d => by
    cases r <;> rfl
  rw [hblank, h, ← hblank]

/-- Giving copies that differ in keys only the same data leaves them differing in keys only (R204). -/
theorem CoreState.hideKeys_withData_congr {c c' : CoreState} (h : c.hideKeys = c'.hideKeys) (m : Memory) :
    CoreState.hideKeys { c with data := m } = CoreState.hideKeys { c' with data := m } :=
  congrArg (fun d : CoreState => { d with data := m }) h

@[simp] theorem State.hideKeys_withCore (s : State) (c : CoreState) :
    (s.withCore c).hideKeys = s.hideKeys.withCore c.hideKeys := rfl

@[simp] theorem State.hideKeys_record (s : State) (r : Reading) : (s.record r).hideKeys = s.hideKeys.record r := rfl

@[simp] theorem State.copies_hideKeys (s : State) : s.hideKeys.copies = s.copies.map CoreState.hideKeys := by
  simp [State.copies, State.hideKeys]

@[simp] theorem State.index_hideKeys (s : State) : s.hideKeys.index = s.index := List.length_map _

/-- Bringing a copy in front does not depend on the keys. -/
theorem State.focus_hideKeys (s : State) (k : Nat) : s.hideKeys.focus k = (s.focus k).map State.hideKeys := by
  unfold State.focus
  rw [State.copies_hideKeys, ← List.map_drop, ← List.map_take]
  cases s.copies.drop k <;> rfl

/-- States that differ in keys only have the same next request, and the states that perform it differ in keys only. -/
theorem State.NextIs.of_hideKeys_eq {s s' t : State} {k : Nat} {op : HostOp} (h : s.NextIs k op t)
    (heq : s.hideKeys = s'.hideKeys) : ∃ t', s'.NextIs k op t' ∧ t.hideKeys = t'.hideKeys := by
  obtain ⟨rest, hpending, hfocus⟩ := h
  have hrest : State.hideKeys { s with pending := rest } = State.hideKeys { s' with pending := rest } :=
    congrArg (fun x : State => { x with pending := rest }) heq
  have hhidden : (State.focus { s' with pending := rest } k).map State.hideKeys = some t.hideKeys := by
    rw [← State.focus_hideKeys, ← hrest, State.focus_hideKeys, hfocus, Option.map_some]
  obtain ⟨t', hfocus', ht'⟩ := Option.map_eq_some_iff.1 hhidden
  exact ⟨t', ⟨rest, (congrArg State.pending heq).symm.trans hpending, hfocus'⟩, ht'.symm⟩

/-- From states that differ in keys only, an access that is no command has the same answer but for keys. -/
theorem hostOp_of_hideKeys_eq {op : HostOp} {s s' u : State} (hop : op.isCommand = false)
    (heq : s.hideKeys = s'.hideKeys) (hu : hostOp op s = .next u) :
    ∃ u', hostOp op s' = .next u' ∧ u.hideKeys = u'.hideKeys := by
  have hcore : s.core.hideKeys = s'.core.hideKeys := congrArg State.core heq
  have hbuf : s.core.bufBytes = s'.core.bufBytes := by rw [← s.core.hideKeys_bufBytes, hcore, CoreState.hideKeys_bufBytes]
  have hdata : s.core.data = s'.core.data := by rw [← s.core.hideKeys_data, hcore, CoreState.hideKeys_data]
  have hindex : s.index = s'.index := by rw [← s.index_hideKeys, heq, State.index_hideKeys]
  have hok := inContract_of_hostOp_eq_next hu
  rw [hbuf] at hok
  obtain ⟨w, rfl, -⟩ | ⟨off, v, rfl, -, rfl⟩ | ⟨a, b, rfl, -, rfl⟩ | ⟨off, rfl, rfl⟩ | ⟨a, b, rfl, hb, rfl⟩ | ⟨rfl, rfl⟩ :=
    hostOp_eq_next_cases hu
  · cases hop
  · have hne : Reg.ofOffset off ≠ .cmd := fun h => by simp [HostOp.isCommand, Reg.ofOffset_eq_cmd_iff.1 h] at hop
    refine ⟨_, hostRegWrite_of_ne_cmd hok hne, ?_⟩
    rw [State.hideKeys_withCore, State.hideKeys_withCore, heq, CoreState.hideKeys_writeReg_congr hcore]
  · refine ⟨_, hostDataWrite_ok hok, ?_⟩
    rw [State.hideKeys_withCore, State.hideKeys_withCore, heq, hdata,
      CoreState.hideKeys_withData_congr hcore]
  · refine ⟨_, hostRegRead_ok hok, ?_⟩
    rw [State.hideKeys_record, State.hideKeys_record, heq, hindex, ← CoreState.readReg_hideKeys, hcore,
      CoreState.readReg_hideKeys]
  · refine ⟨_, hostDataRead_ok hok (hdata ▸ hb), ?_⟩
    rw [State.hideKeys_record, State.hideKeys_record, heq, hindex]
  · refine ⟨_, rfl, ?_⟩
    rw [State.hideKeys_withCore, State.hideKeys_withCore, heq, hbuf]

/-- Settles O51: the two steps perform one request on states that differ in keys only. -/
theorem accessesRevealNoKeyMaterial : Obligations.AccessesRevealNoKeyMaterial := by
  intro s s' t u k op hnext hop heq hu
  obtain ⟨t', hnext', ht⟩ := hnext.of_hideKeys_eq heq
  rw [step_of_nextIs hnext] at hu
  rw [step_of_nextIs hnext']
  exact hostOp_of_hideKeys_eq hop ht hu

end Sys2Proof.Machine

/-! PROOFS. The encoding (R71 to R77): the decoder on all words by its two fields, its agreement with the encoder, the
illegal words, and the accesses of a host script. -/

namespace Sys2Proof.Machine

/-! ### The decoder and the encoder (R71 to R73, R75) -/

/-- A word decodes to a command exactly where RSVD is 0 and OP is that command's selector (R73). -/
theorem decode_eq_ok_iff {w : Word} {i : Instr} : decode w = .ok i ↔ rsvdField w = 0 ∧ opField w = encodeOp i := by
  unfold decode
  split
  case isTrue hrsvd =>
    rw [← selector_eq_some_iff]
    cases selector (opField w).toNat <;> simp [hrsvd]
  case isFalse hrsvd => exact iff_of_false nofun fun h => hrsvd h.1

/-- A word is determined by its two fields (R71). -/
theorem eq_iff_fields_eq {v w : Word} : v = w ↔ rsvdField v = rsvdField w ∧ opField v = opField w := by
  refine ⟨fun h => h ▸ ⟨rfl, rfl⟩, fun ⟨hrsvd, hop⟩ => ?_⟩
  rw [← append_fields v, hrsvd, hop, append_fields]

/-- Settles O2: both sides say that RSVD is 0 and that OP is the selector of the command. -/
theorem decodeAndEncodeAgree : Obligations.DecodeAndEncodeAgree := by
  intro w i
  rw [decode_eq_ok_iff, eq_iff_fields_eq, rsvdField_encode, opField_encode]

/-- Settles O3: where RSVD is 0, the word is illegal exactly where its selector selects no command. -/
theorem illegalWordsAreTheReservedOnes : Obligations.IllegalWordsAreTheReservedOnes := by
  intro w
  unfold decode
  split
  case isTrue hrsvd =>
    rw [← selector_eq_none_iff]
    cases selector (opField w).toNat <;> simp [hrsvd]
  case isFalse hrsvd => exact iff_of_true ⟨_, rfl⟩ (.inl hrsvd)

/-- The word of a command decodes to it (R72). -/
theorem decode_encode (i : Instr) : decode (encode i) = .ok i := (decodeAndEncodeAgree _ i).2 rfl

/-- Settles O1: the five words are those of the encoder; of the other two the rejected field is computed. -/
theorem commandWordsOfTheTable : Obligations.CommandWordsOfTheTable :=
  ⟨decode_encode .nop, decode_encode .deriveSchedule, decode_encode .encryptBlocks, decode_encode .decryptBlocks,
    decode_encode .clear, rfl, rfl⟩

/-! ### A `CMD` write of an illegal word (R205, R223) -/

/-- A word that is rejected has the IllegalCommand outcome, whatever the reason (R205). -/
theorem runCommand_of_decode_error {w : Word} {e : DecodeReject} (h : decode w = .error e) (s : State) :
    runCommand w s = .next (s.withCore (s.core.raise .illegalCommand)) := by
  simp [runCommand, h, execIllegal]

/-- Settles O6: the step is the `CMD` write on the addressed copy, and the word is one that is rejected. -/
theorem illegalWordSetsErrAndNothingElse : Obligations.IllegalWordSetsErrAndNothingElse := by
  intro s t k w hnext hillegal
  obtain ⟨e, hreject⟩ := (illegalWordsAreTheReservedOnes w).2 hillegal
  calc step s = hostOp (.regWrite 0x000 4 w) t := step_of_nextIs hnext
    _ = runCommand w t := hostRegWrite_cmd w t
    _ = .next (t.withCore (t.core.raise .illegalCommand)) := runCommand_of_decode_error hreject t

/-! ### The accesses of a script line (R76, R77) -/

/-- Access `i` of `db a, h` writes byte `i` of the bytes to the address `a + i` (R76). -/
theorem getElem?_dbOps (a : Nat) (bytes : List Byte) (i : Nat) :
    (dbOps a bytes)[i]? = bytes[i]?.map fun b => HostOp.dataWrite (a + i) 1 b := by
  induction bytes generalizing a i with
  | nil => rfl
  | cons b bytes ih =>
    cases i with
    | zero => rfl
    | succ i =>
      have haddr : a + 1 + i = a + (i + 1) := by omega
      simp only [dbOps, List.getElem?_cons_succ, ih, haddr]

/-- Access `i` of `rb a, n` reads the address `a + i` (R76). -/
theorem getElem?_expand_rb (a n i : Nat) :
    (ScriptOp.expand (.rb a n))[i]? = if i < n then some (HostOp.dataRead (a + i) 1) else none := by
  by_cases h : i < n <;> simp [ScriptOp.expand, h]

/-- Byte `m` of four bytes in a row is the `m`-th of them (R13, R25). -/
@[simp] theorem byteOfWord_be32 (b : Fin 4 → Byte) (m : Fin 4) : byteOfWord m (be32 b) = b m := by
  apply BitVec.eq_of_getLsbD_eq
  intro j hj
  simp only [byteOfWord, be32, BitVec.getLsbD_extractLsb', BitVec.getLsbD_append]
  fin_cases m <;> interval_cases j <;> simp

/-- The key words of `derive`, in order (R77). -/
def keyWords (key : List Byte) : List Word := (List.range ((key.length + 3) / 4)).map (keyWordOf key)

theorem length_keyWords (key : List Byte) : (keyWords key).length = (key.length + 3) / 4 := by
  simp [keyWords]

/-- The key writes of `derive` write the key words to the offsets from `KEY0` on (R77). -/
theorem keyOps_eq_mapIdx (key : List Byte) :
    keyOps key = (keyWords key).mapIdx fun j v => HostOp.regWrite (0x020 + 4 * j) 4 v := by
  apply List.ext_getElem
  · simp [keyOps, keyWords]
  · intro j _ _
    simp [keyOps, keyWords]

/-- Key word `j` holds the key bytes from `4j` on, 0 beyond the last (R77). -/
theorem byteOfWord_of_keyWords {key : List Byte} {j : Nat} {v : Word} (h : (keyWords key)[j]? = some v) (m : Fin 4) :
    byteOfWord m v = key.getD (4 * j + m.val) 0 := by
  obtain ⟨hj, rfl⟩ := List.getElem?_eq_some_iff.1 h
  simp [keyWords, keyWordOf]

/-- Settles O18: the lines of a fixed number of accesses by their definitions, `db`, `rb` and `derive` by access. -/
theorem scriptLinesAreTheirAccesses : Obligations.ScriptLinesAreTheirAccesses := by
  refine ⟨fun _ _ => rfl, fun _ => rfl, getElem?_dbOps, getElem?_expand_rb, rfl, fun _ _ _ => rfl, fun _ _ _ => rfl,
    rfl, fun key => ⟨keyWords key, length_keyWords key, ?_, fun _ _ => byteOfWord_of_keyWords⟩⟩
  rw [← keyOps_eq_mapIdx]
  rfl

end Sys2Proof.Machine

/-! PROOFS. The tables and the round function (R100 to R112): each table has an inverse, the products of F do not carry,
hence F mixes the eight table values byte by byte, and the mixing can be undone. -/

namespace Sys2Proof.Machine

/-! ### The substitution tables (R100 to R104) -/

/-- The left rotation of R12 is the library's, for an amount within the width. -/
theorem rol_eq_rotateLeft {n s : Nat} (v : BitVec n) (hs : s < n) : rol v s = v.rotateLeft s := by
  rw [rol, BitVec.rotateLeft_def, Nat.mod_eq_of_lt hs]
  split
  case isTrue h => simp [h, BitVec.ushiftRight_eq_zero]
  case isFalse => rfl

/-- Settles O29: the tables rotate by 1 and by 7, and a byte has 8 bits. -/
theorem tablesFollowFromTheFirst : Obligations.TablesFollowFromTheFirst := fun x =>
  ⟨rol_eq_rotateLeft _ (by decide), rol_eq_rotateLeft _ (by decide),
    congrArg sbox1 (rol_eq_rotateLeft x (by decide))⟩

/-- A rotation by `s` is undone by the rotation by the rest of the width. -/
theorem rol_rol_sub {n s : Nat} (v : BitVec n) (h0 : 0 < s) (hs : s < n) : rol (rol v s) (n - s) = v := by
  apply BitVec.eq_of_getLsbD_eq
  intro i hi
  rw [getLsbD_rol _ (by omega) hi]
  by_cases h : i < n - s
  · have hlow : ¬ n - (n - s) + i < s := by omega
    have hindex : n - (n - s) + i - s = i := by omega
    rw [if_pos h, getLsbD_rol v hs (by omega), if_neg hlow, hindex]
  · have hlow : i - (n - s) < s := by omega
    have hindex : n - s + (i - (n - s)) = i := by omega
    rw [if_neg h, getLsbD_rol v hs (by omega), if_pos hlow, hindex]

/-- A rotation permutes the words of its width. -/
theorem rol_bijective {n s : Nat} (h0 : 0 < s) (hs : s < n) : Function.Bijective fun v : BitVec n => rol v s := by
  have hinverse : Function.LeftInverse (fun v : BitVec n => rol v (n - s)) fun v => rol v s :=
    fun v => rol_rol_sub v h0 hs
  exact Finite.injective_iff_bijective.1 hinverse.injective

/-- The inverse of Table 1, row `hi` as one number of 16 bytes, column 0 the most significant byte, as in `s1Row`. -/
def s1InvRow (hi : BitVec 4) : BitVec 128 :=
  match hi.toNat with
  | 0x0 => 0x9239A3995E57D2E1799CE72E0D411969
  | 0x1 => 0x906649BC60F86B5D6D152F65671C8A26
  | 0x2 => 0x4B176F1078D9B305F1C8EA4A0247BFCC
  | 0x3 => 0x295B68A7540BE8B5ED3262B7EC37289D
  | 0x4 => 0xF00FDBF67114D53593E9A5BB513F1B1A
  | 0x5 => 0x7F3CB06C88E33D0A61CF3A89A1362C2B
  | 0x6 => 0x7C6386BE8E1D43A9EB7ED3123E58C5BA
  | 0x7 => 0x00D6E0A8489656FCD0C176F3248355AD
  | 0x8 => 0xFEB801A24E0920A0DC859840C3DEC723
  | 0x9 => 0xA6771E139F8BB987D14F42B16AACFFC4
  | 0xA => 0x8284DD94EF1630C27B5A80DAE6FA0E22
  | 0xB => 0x464D7304CE75CB5921E2D7F4C61FBDAE
  | 0xC => 0x06F75374912DB6FDB4F5335245A42772
  | 0xD => 0x815C8FF2D8343B5FB2389B972A9E6450
  | 0xE => 0x8C31AFF908079AD47AC00C250318E511
  | _ => 0x4CEE6EABFBC9AA95E4CADF447DCD708D

/-- The byte whose value in Table 1 is `y`. -/
def sbox1Inv (y : Byte) : Byte :=
  (s1InvRow (y.extractLsb' 4 4)).extractLsb' (120 - 8 * (y.extractLsb' 0 4).toNat) 8

/-- Looked up for each of the 256 bytes. -/
theorem sbox1Inv_sbox1 : Function.LeftInverse sbox1Inv sbox1 := by
  unfold Function.LeftInverse
  decide

theorem sbox1_bijective : Function.Bijective sbox1 :=
  Finite.injective_iff_bijective.1 sbox1Inv_sbox1.injective

/-- Settles O30: Table 1 has an inverse, and the other tables are Table 1 and a rotation. -/
theorem tablesArePermutations : Obligations.TablesArePermutations :=
  ⟨sbox1_bijective, (rol_bijective (by decide) (by decide)).comp sbox1_bijective,
    (rol_bijective (by decide) (by decide)).comp sbox1_bijective,
    sbox1_bijective.comp (rol_bijective (by decide) (by decide))⟩

/-- The table of each lane permutes the bytes (R104, R107). -/
theorem tab_injective (i : Fin 8) : Function.Injective (tab i) := by
  obtain ⟨h1, h2, h3, h4⟩ := tablesArePermutations
  match i with
  | 0 | 7 => exact h1.injective
  | 1 | 4 => exact h2.injective
  | 2 | 5 => exact h3.injective
  | 3 | 6 => exact h4.injective

/-! ### The products of F (R108, R110) -/

/-- The number of eight bytes in a row: each at its weight (R13). -/
theorem toNat_be64 (b : Fin 8 → Byte) :
    (be64 b).toNat = ∑ i : Fin 8, (b i).toNat * 2 ^ (56 - 8 * i.val) := by
  simp only [be64, toNat_append_eq_mul_add, Fin.sum_univ_eight]
  norm_num
  ring

/-- Each byte of a lane mask is 0 or 1 (R108). -/
theorem byteOf_laneMask_eq_zero_or_one (i j : Fin 8) : byteOf j (laneMask i) = 0 ∨ byteOf j (laneMask i) = 1 := by
  revert i j
  decide

/-- The product of a lane mask and a byte, in the naturals, is the number of the bytewise products: no byte carries into
the next (R110). -/
theorem toNat_laneMask_mul (i : Fin 8) (s : Byte) :
    (laneMask i).toNat * s.toNat = (be64 fun j => byteOf j (laneMask i) * s).toNat := by
  have hbyte (j : Fin 8) : (byteOf j (laneMask i) * s).toNat = (byteOf j (laneMask i)).toNat * s.toNat := by
    rcases byteOf_laneMask_eq_zero_or_one i j with h | h <;> simp [h]
  calc (laneMask i).toNat * s.toNat
      = (be64 fun j => byteOf j (laneMask i)).toNat * s.toNat := by rw [be64_byteOf]
    _ = (be64 fun j => byteOf j (laneMask i) * s).toNat := by
      simp only [toNat_be64, Finset.sum_mul, hbyte, mul_right_comm]

/-- Byte `j` of a product of F is the product of byte `j` of the mask and the table value (R110). -/
@[simp] theorem byteOf_laneProduct (i j : Fin 8) (x : DWord) :
    byteOf j (laneProduct i x) = byteOf j (laneMask i) * tab i (byteOf i x) := by
  have hproduct : laneProduct i x = be64 fun j => byteOf j (laneMask i) * tab i (byteOf i x) := by
    apply BitVec.eq_of_toNat_eq
    rw [laneProduct, BitVec.toNat_mul, BitVec.toNat_setWidth_of_le (by decide), toNat_laneMask_mul,
      Nat.mod_eq_of_lt (BitVec.isLt _)]
  rw [hproduct, byteOf_be64]

/-- Settles O31: the product is the number of a 64-bit word whose bytes are 0 or the table value. -/
theorem laneProductsNeverCarry : Obligations.LaneProductsNeverCarry := by
  intro i j x
  refine ⟨?_, fun h => by simp [h], fun h => ?_⟩
  · rw [toNat_laneMask_mul]
    exact BitVec.isLt _
  · have hzero : byteOf j (laneMask i) = 0 := (byteOf_laneMask_eq_zero_or_one i j).resolve_right h
    exact ⟨hzero, by simp [hzero]⟩

/-! ### The byte form of F (R111, R112) -/

/-- The bytes of F from the eight table values (R111). -/
def mixBytes (s : Fin 8 → Byte) : Fin 8 → Byte
  | 0 => s 0 ^^^ s 2 ^^^ s 3 ^^^ s 5 ^^^ s 6 ^^^ s 7
  | 1 => s 0 ^^^ s 1 ^^^ s 3 ^^^ s 4 ^^^ s 6 ^^^ s 7
  | 2 => s 0 ^^^ s 1 ^^^ s 2 ^^^ s 4 ^^^ s 5 ^^^ s 7
  | 3 => s 1 ^^^ s 2 ^^^ s 3 ^^^ s 4 ^^^ s 5 ^^^ s 6
  | 4 => s 0 ^^^ s 1 ^^^ s 5 ^^^ s 6 ^^^ s 7
  | 5 => s 1 ^^^ s 2 ^^^ s 4 ^^^ s 6 ^^^ s 7
  | 6 => s 2 ^^^ s 3 ^^^ s 4 ^^^ s 5 ^^^ s 7
  | 7 => s 0 ^^^ s 3 ^^^ s 4 ^^^ s 5 ^^^ s 6

/-- The table values that byte `j` of F takes up are those of the lanes whose mask has a 1 there (R108, R111). -/
theorem xor_laneMask_mul_eq_mixBytes (s : Fin 8 → Byte) (j : Fin 8) :
    byteOf j (laneMask 0) * s 0 ^^^ byteOf j (laneMask 1) * s 1 ^^^ byteOf j (laneMask 2) * s 2 ^^^
      byteOf j (laneMask 3) * s 3 ^^^ byteOf j (laneMask 4) * s 4 ^^^ byteOf j (laneMask 5) * s 5 ^^^
      byteOf j (laneMask 6) * s 6 ^^^ byteOf j (laneMask 7) * s 7 = mixBytes s j := by
  fin_cases j <;> simp [byteOf, laneMask, mixBytes]

/-- The bytes of F are the mixed table values of `v xor k` (R111). -/
theorem byteOf_roundF (v k : DWord) (j : Fin 8) :
    byteOf j (roundF v k) = mixBytes (fun i => tab i (byteOf i (v ^^^ k))) j := by
  simp only [roundF, mixLanes, byteOf_xor, byteOf_laneProduct, ← xor_laneMask_mul_eq_mixBytes]

/-- Settles O32: the eight bytes, one by one. -/
theorem roundFunctionByteForm : Obligations.RoundFunctionByteForm := fun v k =>
  ⟨byteOf_roundF v k 0, byteOf_roundF v k 1, byteOf_roundF v k 2, byteOf_roundF v k 3,
    byteOf_roundF v k 4, byteOf_roundF v k 5, byteOf_roundF v k 6, byteOf_roundF v k 7⟩

/-- Settles O34: a table entry is the product of a lane whose table value it holds. -/
theorem roundFunctionTableForm : Obligations.RoundFunctionTableForm := fun _ _ => rfl

/-! ### F as a bijection (R109) -/

/-- The table values from the bytes of F. -/
def unmixBytes (z : Fin 8 → Byte) : Fin 8 → Byte
  | 0 => z 1 ^^^ z 2 ^^^ z 3 ^^^ z 5 ^^^ z 6 ^^^ z 7
  | 1 => z 0 ^^^ z 2 ^^^ z 3 ^^^ z 4 ^^^ z 6 ^^^ z 7
  | 2 => z 0 ^^^ z 1 ^^^ z 3 ^^^ z 4 ^^^ z 5 ^^^ z 7
  | 3 => z 0 ^^^ z 1 ^^^ z 2 ^^^ z 4 ^^^ z 5 ^^^ z 6
  | 4 => z 0 ^^^ z 1 ^^^ z 4 ^^^ z 6 ^^^ z 7
  | 5 => z 1 ^^^ z 2 ^^^ z 4 ^^^ z 5 ^^^ z 7
  | 6 => z 2 ^^^ z 3 ^^^ z 4 ^^^ z 5 ^^^ z 6
  | 7 => z 0 ^^^ z 3 ^^^ z 5 ^^^ z 6 ^^^ z 7

/-- Each table value stands an odd number of times in its own row, every other one an even number of times. -/
theorem unmixBytes_mixBytes : Function.LeftInverse unmixBytes mixBytes := by
  intro s
  have xor_left_comm (a b c : Byte) : a ^^^ (b ^^^ c) = b ^^^ (a ^^^ c) := by
    rw [← BitVec.xor_assoc, BitVec.xor_comm a, BitVec.xor_assoc]
  funext i
  fin_cases i <;> simp only [unmixBytes, mixBytes, Fin.zero_eta, Fin.mk_one, Fin.reduceFinMk]
  all_goals
    generalize s 0 = a, s 1 = b, s 2 = c, s 3 = d, s 4 = e, s 5 = f, s 6 = g, s 7 = h
    simp only [xor_left_comm, BitVec.xor_comm, xor_cancel_left, BitVec.xor_self, BitVec.xor_zero]

/-- Undo the mixing, then each table, then the XOR with `k`. -/
theorem roundF_injective (k : DWord) : Function.Injective fun v => roundF v k := by
  intro v w h
  have hmix : mixBytes (fun i => tab i (byteOf i (v ^^^ k))) = mixBytes (fun i => tab i (byteOf i (w ^^^ k))) := by
    funext j
    rw [← byteOf_roundF, ← byteOf_roundF]
    exact congrArg (byteOf j) h
  have htab (i : Fin 8) : tab i (byteOf i (v ^^^ k)) = tab i (byteOf i (w ^^^ k)) :=
    congrFun (unmixBytes_mixBytes.injective hmix) i
  have hxor : v ^^^ k = w ^^^ k := eq_of_byteOf_eq fun i => tab_injective i (htab i)
  exact (BitVec.xor_left_inj k).1 hxor

/-- Settles O33: `F(v, v)` is F at 0, and an injection of the 64-bit words into themselves is a bijection. -/
theorem roundFunctionIsABijection : Obligations.RoundFunctionIsABijection := by
  refine ⟨fun v k => ?_, fun v => ?_, fun k => Finite.injective_iff_bijective.1 (roundF_injective k)⟩
  · simp [roundF]
  · rw [roundF, BitVec.xor_self]
    decide

end Sys2Proof.Machine

/-! PROOFS. The keyed linear layer (R130 to R133): FL is two steps, each its own inverse, and FLINV is the same two
steps in reverse order. -/

namespace Sys2Proof.Machine

/-- The first step of FL and last of FLINV: the low half takes up the rotated conjunction of the high halves of `v` and
`k`. -/
def flLowStep (k v : DWord) : DWord := hi32 v ++ (lo32 v ^^^ rol (hi32 v &&& hi32 k) 1)

/-- The last step of FL and first of FLINV: the high half takes up the disjunction of the low halves of `v` and `k`. -/
def flHighStep (k v : DWord) : DWord := (hi32 v ^^^ (lo32 v ||| lo32 k)) ++ lo32 v

theorem fl_eq_flHighStep_flLowStep (v k : DWord) : fl v k = flHighStep k (flLowStep k v) := by
  simp [fl, flHighStep, flLowStep]

theorem flinv_eq_flLowStep_flHighStep (v k : DWord) : flinv v k = flLowStep k (flHighStep k v) := by
  simp [flinv, flHighStep, flLowStep]

/-- The XORed word depends on the high half alone, which the step keeps (R133). -/
theorem flLowStep_involutive (k : DWord) : Function.Involutive (flLowStep k) := fun v => by
  simp only [flLowStep, hi32_append, lo32_append, xor_cancel_right, hi32_append_lo32]

/-- The XORed word depends on the low half alone, which the step keeps (R133). -/
theorem flHighStep_involutive (k : DWord) : Function.Involutive (flHighStep k) := fun v => by
  simp only [flHighStep, hi32_append, lo32_append, xor_cancel_right, hi32_append_lo32]

@[simp] theorem flinv_fl (v k : DWord) : flinv (fl v k) k = v := by
  rw [fl_eq_flHighStep_flLowStep, flinv_eq_flLowStep_flHighStep, flHighStep_involutive k, flLowStep_involutive k]

@[simp] theorem fl_flinv (v k : DWord) : fl (flinv v k) k = v := by
  rw [fl_eq_flHighStep_flLowStep, flinv_eq_flLowStep_flHighStep, flLowStep_involutive k, flHighStep_involutive k]

/-- Settles O35: each function is the other's inverse on both sides. -/
theorem keyedLayerInverses : Obligations.KeyedLayerInverses := fun k =>
  ⟨fun v => ⟨flinv_fl v k, fl_flinv v k⟩,
    Function.bijective_iff_has_inverse.2 ⟨fun v => flinv v k, fun v => flinv_fl v k, fun v => fl_flinv v k⟩,
    Function.bijective_iff_has_inverse.2 ⟨fun v => fl v k, fun v => fl_flinv v k, fun v => flinv_fl v k⟩⟩

end Sys2Proof.Machine

/-! PROOFS. The key schedule (R140 to R150): the rotation by halves, the secrets as functions of the key bytes below
`KEYLEN`, and DERIVE_SCHEDULE by its two outcomes. -/

namespace Sys2Proof.Machine

/-! ### The rotation of a pair by halves (R145, R146) -/

/-- The rotation by 0 keeps the halves (R146). -/
theorem rot128Half_zero (x : Pair) : rot128Half x 0 .h = x.h ∧ rot128Half x 0 .l = x.l :=
  ⟨BitVec.extractLsb'_append_eq_left, BitVec.extractLsb'_append_eq_right⟩

/-- The right-hand sides of R146 bit by bit: the low `s` bits are the top bits of the second word. -/
theorem getLsbD_shiftLeft_or_ushiftRight (v w : DWord) (s : Nat) {i : Nat} (hi : i < 64) :
    ((v <<< s) ||| (w >>> (64 - s))).getLsbD i = if i < s then w.getLsbD (64 - s + i) else v.getLsbD (i - s) := by
  rw [BitVec.getLsbD_or, BitVec.getLsbD_shiftLeft, BitVec.getLsbD_ushiftRight]
  by_cases h : i < s
  · simp [h]
  · have hbeyond : w.getLsbD (64 - s + i) = false := BitVec.getLsbD_of_ge _ _ (by omega)
    simp [h, hi, hbeyond]

/-- Below 64 the high half takes up the top bits of the low one. -/
theorem rot128Half_h_of_lt {s : Nat} (hs : s < 64) (x : Pair) :
    rot128Half x s .h = (x.h <<< s) ||| (x.l >>> (64 - s)) := by
  apply BitVec.eq_of_getLsbD_eq
  intro i hi
  rw [getLsbD_shiftLeft_or_ushiftRight _ _ _ hi, rot128Half, rot128, BitVec.getLsbD_extractLsb',
    getLsbD_rol _ (by omega) (by omega), if_neg (by omega), BitVec.getLsbD_append]
  by_cases h : i < s
  · have hindex : 64 + i - s = 64 - s + i := by omega
    have hlow : 64 - s + i < 64 := by omega
    simp [h, hi, hindex, hlow]
  · have hindex : 64 + i - s - 64 = i - s := by omega
    have hhigh : ¬ 64 + i - s < 64 := by omega
    simp [h, hi, hindex, hhigh]

/-- Below 64 the low half takes up the top bits of the high one. -/
theorem rot128Half_l_of_lt {s : Nat} (hs : s < 64) (x : Pair) :
    rot128Half x s .l = (x.l <<< s) ||| (x.h >>> (64 - s)) := by
  apply BitVec.eq_of_getLsbD_eq
  intro i hi
  rw [getLsbD_shiftLeft_or_ushiftRight _ _ _ hi, rot128Half, rot128, BitVec.getLsbD_extractLsb', Nat.zero_add,
    getLsbD_rol _ (by omega) (by omega), BitVec.getLsbD_append, BitVec.getLsbD_append]
  by_cases h : i < s
  · have hindex : 128 - s + i - 64 = 64 - s + i := by omega
    have hhigh : ¬ 128 - s + i < 64 := by omega
    simp [h, hi, hindex, hhigh]
  · have hlow : i - s < 64 := by omega
    simp [h, hi, hlow]

/-- A rotation by 64 or more is the rotation of the swapped pair by 64 less. -/
theorem rot128_swap {s : Nat} (h64 : 64 ≤ s) (hs : s < 128) (x : Pair) : rot128 x s = rot128 ⟨x.l, x.h⟩ (s - 64) := by
  apply BitVec.eq_of_getLsbD_eq
  intro i hi
  rw [rot128, rot128, getLsbD_rol _ hs hi, getLsbD_rol _ (by omega) hi]
  simp only [BitVec.getLsbD_append]
  by_cases h : i < s
  · rw [if_pos h]
    by_cases hrest : i < s - 64
    · have hlow : 128 - s + i < 64 := by omega
      have hhigh : ¬ 128 - (s - 64) + i < 64 := by omega
      have hindex : 128 - (s - 64) + i - 64 = 128 - s + i := by omega
      rw [if_pos hrest, if_pos hlow, if_neg hhigh, hindex]
    · have hhigh : ¬ 128 - s + i < 64 := by omega
      have hlow : i - (s - 64) < 64 := by omega
      have hindex : 128 - s + i - 64 = i - (s - 64) := by omega
      rw [if_neg hrest, if_neg hhigh, if_pos hlow, hindex]
  · have hrest : ¬ i < s - 64 := by omega
    have hlow : i - s < 64 := by omega
    have hhigh : ¬ i - (s - 64) < 64 := by omega
    have hindex : i - (s - 64) - 64 = i - s := by omega
    rw [if_neg h, if_neg hrest, if_pos hlow, if_neg hhigh, hindex]

theorem rot128Half_swap {s : Nat} (h64 : 64 ≤ s) (hs : s < 128) (x : Pair) (half : Half) :
    rot128Half x s half = rot128Half ⟨x.l, x.h⟩ (s - 64) half := by
  cases half <;> simp only [rot128Half, rot128_swap h64 hs]

/-- Settles O22: below 64 bit by bit, from 64 on by swapping the halves first. -/
theorem rotationInTwoHalves : Obligations.RotationInTwoHalves := by
  intro x
  refine ⟨rot128Half_zero x, fun s _ hs => ⟨rot128Half_h_of_lt hs x, rot128Half_l_of_lt hs x⟩, ?_, fun s h64 hs => ?_⟩
  · rw [rot128Half_swap le_rfl (by decide), rot128Half_swap le_rfl (by decide)]
    exact rot128Half_zero ⟨x.l, x.h⟩
  · have hrest : 128 - s = 64 - (s - 64) := by omega
    rw [rot128Half_swap h64.le hs, rot128Half_swap h64.le hs, hrest]
    have hlt : s - 64 < 64 := by omega
    exact ⟨rot128Half_h_of_lt hlt ⟨x.l, x.h⟩, rot128Half_l_of_lt hlt ⟨x.l, x.h⟩⟩

/-! ### The secrets (R140 to R144) -/

/-- Settles O21: the steps of R143 and R144 are Feistel pairs, and no row of the shorter table names KB. -/
theorem derivedSecretsByFeistelSteps : Obligations.DerivedSecretsByFeistelSteps :=
  ⟨fun _ _ => rfl, fun _ _ => rfl, by decide⟩

/-- A key half depends on its eight bytes only. -/
theorem keyDWord_congr {key key' : Vector Word 8} {j : Fin 4}
    (h : ∀ i : Fin 32, i.val < 8 * j.val + 8 → keyByte key i = keyByte key' i) : keyDWord key j = keyDWord key' j :=
  congrArg be64 (funext fun i => h _ (Nat.add_lt_add_left i.isLt _))

/-- The secrets depend on the key bytes below the key's length only (R141, R142). -/
theorem secretsOf_congr {k : KeyClass} {key key' : Vector Word 8}
    (h : ∀ i : Fin 32, i.val < k.keyBytes → keyByte key i = keyByte key' i) : secretsOf k key = secretsOf k key' := by
  have hhalf : ∀ j : Fin 4, 8 * j.val + 8 ≤ k.keyBytes → keyDWord key j = keyDWord key' j :=
    fun j hj => keyDWord_congr fun i hi => h i (by omega)
  have hkl : loadKL key = loadKL key' := by
    have h16 : 16 ≤ k.keyBytes := by cases k <;> decide
    have h8 : 8 ≤ k.keyBytes := by omega
    rw [loadKL, loadKL, hhalf 0 h8, hhalf 1 h16]
  have hkr : loadKR k key = loadKR k key' := by
    cases k with
    | k128 => rfl
    | k192 => rw [loadKR, loadKR, hhalf 2 le_rfl]
    | k256 => rw [loadKR, loadKR, hhalf 2 (by decide), hhalf 3 le_rfl]
  rw [secretsOf, secretsOf, hkl, hkr]

/-- A 32-byte key whose last half is the complement of the half before has the secrets of its first 24 bytes (R142). -/
theorem secretsOf_k256_of_complement {key : Vector Word 8} (h : keyDWord key 3 = ~~~ keyDWord key 2) :
    secretsOf .k256 key = secretsOf .k192 key := by
  simp only [secretsOf, loadKR, h]

/-- The complement is taken byte by byte. -/
@[simp] theorem byteOf_not (i : Fin 8) (w : DWord) : byteOf i (~~~ w) = ~~~ byteOf i w := by
  have hones : ∀ i, byteOf i (BitVec.allOnes 64) = BitVec.allOnes 8 := by decide
  rw [← BitVec.xor_allOnes, byteOf_xor, hones, BitVec.xor_allOnes]

/-- The key bytes from 24 on complement those before, hence so do the key halves (R25, R54). -/
theorem keyDWord_three_eq_not {key : Vector Word 8}
    (h : ∀ i : Fin 32, (hi : 24 ≤ i.val) → keyByte key i = ~~~ keyByte key ⟨i.val - 8, by omega⟩) :
    keyDWord key 3 = ~~~ keyDWord key 2 := by
  apply eq_of_byteOf_eq
  intro i
  have hindex : 8 * 3 + i.val - 8 = 8 * 2 + i.val := by omega
  have hbyte : keyByte key ⟨8 * 3 + i.val, by omega⟩ = ~~~ keyByte key ⟨8 * 2 + i.val, by omega⟩ := by
    simpa only [hindex] using h ⟨8 * 3 + i.val, by omega⟩ (Nat.le_add_right 24 i.val)
  rw [byteOf_not, keyDWord, keyDWord, byteOf_be64, byteOf_be64]
  exact hbyte

/-! ### DERIVE_SCHEDULE (R149, R150) -/

/-- A length that is no class's is not accepted (R7). -/
theorem KeyClass.ofLength_eq_none {n : Nat} (h : ∀ k : KeyClass, n ≠ k.keyBytes) : KeyClass.ofLength n = none :=
  Option.eq_none_iff_forall_ne_some.2 fun k hk => h k (KeyClass.ofLength_eq_some_iff.1 hk)

/-- Settles O25: the accepted outcome; what the statement writes out for a row is `Secrets.subkey` of the secrets. -/
theorem deriveExpandsTheKey : Obligations.DeriveExpandsTheKey := by
  intro s k hlen
  have hderive := CoreState.deriveSchedule_of_length (KeyClass.ofLength_eq_some_iff.2 hlen)
  refine ⟨_, exec_deriveSchedule s, ?_⟩
  rw [hderive]
  refine ⟨rfl, fun j => Vector.getElem_replicate j.isLt, subkeyTable_length k, fun i row hrow => ?_,
    fun i hi => subkeyFile_getElem_of_ge hi⟩
  exact subkeyFile_getElem_of_row hrow

/-- Settles O24: the rejecting outcome. -/
theorem deriveRejectsOtherLengths : Obligations.DeriveRejectsOtherLengths := by
  intro s h16 h24 h32
  have hlen : ∀ k : KeyClass, s.core.keylen.toNat ≠ k.keyBytes
    | .k128, h => h16 (BitVec.eq_of_toNat_eq h)
    | .k192, h => h24 (BitVec.eq_of_toNat_eq h)
    | .k256, h => h32 (BitVec.eq_of_toNat_eq h)
  refine ⟨_, exec_deriveSchedule s, ?_⟩
  rw [CoreState.deriveSchedule_of_bad_length (KeyClass.ofLength_eq_none hlen)]
  exact ⟨rfl, fun i => Vector.getElem_replicate i.isLt, fun j => Vector.getElem_replicate j.isLt⟩

/-- Settles O26: the rejecting outcome has `ERR` = 1, and the accepted one has the class of the key's length. -/
theorem scheduleLengthFollowsFromTheKeyLength : Obligations.ScheduleLengthFollowsFromTheKeyLength := by
  intro s t ht herr
  cases ht
  obtain ⟨-, hd⟩ | ⟨k, hk, hd⟩ := s.core.deriveSchedule_cases
  · simp [hd, ErrorCode.code] at herr
  · have hlen := KeyClass.ofLength_eq_some_iff.1 hk
    have h16 : s.core.keylen = 16 ↔ k.keyBytes = 16 := hlen ▸ BitVec.toNat_inj.symm
    have hvariant : (s.withCore s.core.deriveSchedule).core.variant = k.variant := by simp [hd]
    rw [hvariant, nskOf_variant, KeyClass.ofVariant_variant]
    simp only [h16]
    refine ⟨?_, k, rfl, rfl, ?_⟩ <;> cases k <;> rfl

/-- Settles O27: neither outcome reads the earlier schedule, `VARIANT` or `ERR`, and the secrets read the key bytes below
the length. -/
theorem deriveReadsOnlyTheKeyBytesBelowKeylen : Obligations.DeriveReadsOnlyTheKeyBytesBelowKeylen := by
  intro s key sk v e hkey
  refine congrArg (fun c => Host.Outcome.next (s.withCore c)) ?_
  obtain ⟨hk, hd⟩ | ⟨k, hk, hd⟩ := s.core.deriveSchedule_cases
  · rw [hd]
    exact CoreState.deriveSchedule_of_bad_length hk
  · have hsecrets : secretsOf k key = secretsOf k s.core.key :=
      secretsOf_congr (KeyClass.ofLength_eq_some_iff.1 hk ▸ hkey)
    rw [hd, ← hsecrets]
    exact CoreState.deriveSchedule_of_length hk

/-- Settles O28: the two keys have the same secrets, and the two classes share one subkey table (R148). -/
theorem complementedLongKeyGivesTheShorterSchedule : Obligations.ComplementedLongKeyGivesTheShorterSchedule := by
  intro s t u hkey ht hu
  have hsecrets := secretsOf_k256_of_complement (keyDWord_three_eq_not hkey)
  rw [exec_deriveSchedule, CoreState.deriveSchedule_of_length (k := .k192) rfl] at ht
  rw [exec_deriveSchedule, CoreState.deriveSchedule_of_length (k := .k256) rfl, hsecrets] at hu
  cases ht
  cases hu
  exact ⟨rfl, rfl, rfl, rfl⟩

end Sys2Proof.Machine

/-! PROOFS. The block driver (R170 to R182): a block's pass as one palindromic list of steps, the unrolled passes, that the
two directions undo each other, and what a transform command does to its blocks. -/

namespace Sys2Proof.Machine

/-! ### The steps of one block between the whitenings (R171, R173) -/

/-- A step of a block's pass between the whitenings. -/
inductive DriverStep where
  /-- A Feistel pair. -/
  | pair
  /-- An FL layer. -/
  | layer

/-- The steps of one round of the loop. -/
def roundSteps (r : Nat) : List DriverStep := if r % 3 = 0 then [.layer, .pair] else [.pair]

/-- The steps of one block between the whitenings, the same list for both directions (R171, R173). -/
def driverSteps (k : KeyClass) : List DriverStep := .pair :: (loopRounds k).flatMap roundSteps ++ [.pair]

/-- A step of the encryption. -/
def encStep (sk : Vector DWord 34) (w : Work) : DriverStep → Work
  | .pair => encPair sk w
  | .layer => encFL sk w

/-- A step of the decryption. -/
def decStep (sk : Vector DWord 34) (w : Work) : DriverStep → Work
  | .pair => decPair sk w
  | .layer => decFL sk w

/-- The steps of the encryption from its initial whitening on, the cursor behind the two subkeys used. -/
def encPass (sk : Vector DWord 34) (k : KeyClass) (x : DWord × DWord) : Work :=
  (driverSteps k).foldl (encStep sk) (Work.of x 2)

/-- The steps of the decryption from its initial whitening on, the cursor below the two subkeys used. -/
def decPass (sk : Vector DWord 34) (k : KeyClass) (x : DWord × DWord) : Work :=
  (driverSteps k).foldl (decStep sk) (Work.of x (k.nsk - 3))

theorem encRound_eq_foldl (sk : Vector DWord 34) (w : Work) (r : Nat) :
    encRound sk w r = (roundSteps r).foldl (encStep sk) w := by
  by_cases h : r % 3 = 0 <;> simp [encRound, roundSteps, encStep, h]

theorem decRound_eq_foldl (sk : Vector DWord 34) (w : Work) (r : Nat) :
    decRound sk w r = (roundSteps r).foldl (decStep sk) w := by
  by_cases h : r % 3 = 0 <;> simp [decRound, roundSteps, decStep, h]

/-- Each step of the encryption moves the cursor two subkeys up. -/
theorem foldl_encStep_c (sk : Vector DWord 34) (w : Work) (l : List DriverStep) :
    (l.foldl (encStep sk) w).c = w.c + 2 * l.length := by
  induction l generalizing w with
  | nil => rfl
  | cons st l ih =>
    have hstep : (encStep sk w st).c = w.c + 2 := by cases st <;> rfl
    rw [List.foldl_cons, ih, hstep, List.length_cons]
    omega

/-- Each step of the decryption moves the cursor two subkeys down. -/
theorem foldl_decStep_c (sk : Vector DWord 34) (w : Work) (l : List DriverStep) :
    (l.foldl (decStep sk) w).c = w.c - 2 * l.length := by
  induction l generalizing w with
  | nil => rfl
  | cons st l ih =>
    have hstep : (decStep sk w st).c = w.c - 2 := by cases st <;> rfl
    rw [List.foldl_cons, ih, hstep, List.length_cons]
    omega

/-- The encryption arrives at its last two subkeys (R150). -/
theorem encPass_c (sk : Vector DWord 34) (k : KeyClass) (x : DWord × DWord) : (encPass sk k x).c = k.nsk - 2 := by
  rw [encPass, foldl_encStep_c]
  cases k <;> rfl

/-- The decryption arrives at the first two subkeys. -/
theorem decPass_c (sk : Vector DWord 34) (k : KeyClass) (x : DWord × DWord) : (decPass sk k x).c = 1 := by
  rw [decPass, foldl_decStep_c]
  cases k <;> rfl

/-- EncBlock: whitening with the first two subkeys, the steps, whitening with the last two and the halves exchanged. -/
theorem encBlock_eq_encPass (sk : Vector DWord 34) (k : KeyClass) (blk : Block) {w : Work}
    (hw : encPass sk k (blk.hi ^^^ subkeyAt sk 0, blk.lo ^^^ subkeyAt sk 1) = w) :
    encBlock sk k blk =
      Block.ofWords (w.d2 ^^^ subkeyAt sk (k.nsk - 2)) (w.d1 ^^^ subkeyAt sk (k.nsk - 2 + 1)) := by
  have hloop : w = encPair sk ((loopRounds k).foldl (encRound sk)
      (encPair sk (Work.of (blk.hi ^^^ subkeyAt sk 0, blk.lo ^^^ subkeyAt sk 1) 2))) := by
    simp only [← hw, encPass, driverSteps, List.cons_append, List.foldl_cons, List.foldl_append, List.foldl_flatMap,
      ← encRound_eq_foldl, List.foldl_nil, encStep]
  rw [← encPass_c sk k, hw, hloop]
  rfl

/-- DecBlock: whitening with the last two subkeys, the steps, whitening with the first two and the halves exchanged. -/
theorem decBlock_eq_decPass (sk : Vector DWord 34) (k : KeyClass) (blk : Block) {w : Work}
    (hw : decPass sk k (blk.hi ^^^ subkeyAt sk (k.nsk - 2), blk.lo ^^^ subkeyAt sk (k.nsk - 2 + 1)) = w) :
    decBlock sk k blk = Block.ofWords (w.d2 ^^^ subkeyAt sk 0) (w.d1 ^^^ subkeyAt sk 1) := by
  have hnsk : k.nsk - 2 + 1 = k.nsk - 1 := by cases k <;> rfl
  have hc : w.c = 1 := hw ▸ decPass_c sk k _
  have hloop : w = decPair sk ((loopRounds k).foldl (decRound sk) (decPair sk
      (Work.of (blk.hi ^^^ subkeyAt sk (k.nsk - 2), blk.lo ^^^ subkeyAt sk (k.nsk - 1)) (k.nsk - 3)))) := by
    simp only [← hw, decPass, driverSteps, List.cons_append, List.foldl_cons, List.foldl_append, List.foldl_flatMap,
      ← decRound_eq_foldl, List.foldl_nil, decStep, hnsk]
  calc decBlock sk k blk
      = Block.ofWords (w.d2 ^^^ subkeyAt sk (w.c - 1)) (w.d1 ^^^ subkeyAt sk w.c) := by rw [hloop]; rfl
    _ = Block.ofWords (w.d2 ^^^ subkeyAt sk 0) (w.d1 ^^^ subkeyAt sk 1) := by rw [hc]

/-! ### The passes unrolled (R172, R174) -/

@[simp] theorem Work.of_d1 (x : DWord × DWord) (c : Nat) : (Work.of x c).d1 = x.1 := rfl
@[simp] theorem Work.of_d2 (x : DWord × DWord) (c : Nat) : (Work.of x c).d2 = x.2 := rfl

/-- A 16-byte key: three times three pairs with a layer between (R172, R174). -/
theorem driverSteps_k128 : driverSteps .k128 =
    [.pair, .pair, .pair, .layer, .pair, .pair, .pair, .layer, .pair, .pair, .pair] := rfl

/-- A longer key: four times three pairs with a layer between (R172, R174). -/
theorem driverSteps_of_ne_k128 {k : KeyClass} (h : k ≠ .k128) : driverSteps k =
    [.pair, .pair, .pair, .layer, .pair, .pair, .pair, .layer, .pair, .pair, .pair, .layer, .pair, .pair, .pair] := by
  cases k with
  | k128 => contradiction
  | k192 => rfl
  | k256 => rfl

/-- Settles O36: the steps one by one, the cursor at 2, 4, 6, ... -/
theorem encryptionUnrolled : Obligations.EncryptionUnrolled := by
  intro sk blk
  refine ⟨?k128, ?k192, ?k256⟩
  all_goals
    rw [encBlock_eq_encPass sk _ blk rfl, encPass]
    simp [driverSteps_k128, driverSteps_of_ne_k128, KeyClass.nsk, encStep, encPair_of, encFL_of, subkeyAt_eq]

/-- Settles O37: the steps one by one, the cursor at `NSK - 3`, `NSK - 5`, `NSK - 7`, ... -/
theorem decryptionUnrolled : Obligations.DecryptionUnrolled := by
  intro sk blk
  refine ⟨?k128, ?k192, ?k256⟩
  all_goals
    rw [decBlock_eq_decPass sk _ blk rfl, decPass]
    simp [driverSteps_k128, driverSteps_of_ne_k128, KeyClass.nsk, decStep, decPair_of, decFL_of, subkeyAt_eq]

/-! ### Decryption undoes encryption (R175) -/

/-- The steps read the same from either end, since `ROUNDS` is a multiple of 3. -/
theorem reverse_driverSteps (k : KeyClass) : (driverSteps k).reverse = driverSteps k := by
  cases k <;> rfl

/-- What the decryption starts from to go back over an encryption that stands at `w`: the halves exchanged, the cursor at
the last subkey used. -/
def Work.mirror (w : Work) : Work := Work.of (w.d2, w.d1) (w.c - 1)

/-- A layer is undone by the layer with its subkeys exchanged, on exchanged halves (R133). -/
theorem layerStep_swap (x : DWord × DWord) (a b : DWord) :
    layerStep ((layerStep x a b).2, (layerStep x a b).1) b a = (x.2, x.1) := by
  simp [layerStep]

/-- A step of the decryption goes back over the same step of the encryption. -/
theorem decStep_mirror_encStep (sk : Vector DWord 34) (w : Work) (st : DriverStep) :
    decStep sk (encStep sk w st).mirror st = w.mirror := by
  cases st with
  | pair => exact congrArg (Work.of · (w.c - 1)) (pairStep_swap (w.d1, w.d2) _ _)
  | layer => exact congrArg (Work.of · (w.c - 1)) (layerStep_swap (w.d1, w.d2) _ _)

/-- The steps of the decryption in reverse order go back over those of the encryption. -/
theorem foldl_decStep_mirror_foldl_encStep (sk : Vector DWord 34) (w : Work) (l : List DriverStep) :
    l.reverse.foldl (decStep sk) (l.foldl (encStep sk) w).mirror = w.mirror := by
  induction l generalizing w with
  | nil => rfl
  | cons st l ih =>
    simp only [List.reverse_cons, List.foldl_append, List.foldl_cons, List.foldl_nil, ih, decStep_mirror_encStep]

/-- From the exchanged halves that the encryption leaves, the decryption comes back to its exchanged halves. -/
theorem decPass_encPass (sk : Vector DWord 34) (k : KeyClass) (x : DWord × DWord) :
    decPass sk k ((encPass sk k x).d2, (encPass sk k x).d1) = (Work.of x 2).mirror := by
  have hstart : Work.of ((encPass sk k x).d2, (encPass sk k x).d1) (k.nsk - 3) = (encPass sk k x).mirror := by
    rw [Work.mirror, encPass_c, Nat.sub_sub]
  calc decPass sk k ((encPass sk k x).d2, (encPass sk k x).d1)
      = (driverSteps k).reverse.foldl (decStep sk) (encPass sk k x).mirror := by
        rw [decPass, hstart, reverse_driverSteps]
    _ = (Work.of x 2).mirror := foldl_decStep_mirror_foldl_encStep sk _ _

/-- The whitenings cancel, and between them the steps are undone. -/
theorem decBlock_encBlock (sk : Vector DWord 34) (k : KeyClass) (blk : Block) :
    decBlock sk k (encBlock sk k blk) = blk := by
  have hback := decPass_encPass sk k (blk.hi ^^^ subkeyAt sk 0, blk.lo ^^^ subkeyAt sk 1)
  rw [encBlock_eq_encPass sk k blk rfl, decBlock_eq_decPass sk k _ (by simpa using hback)]
  simp [Work.mirror, Work.of]

/-- There are finitely many blocks. -/
theorem finite_block : Finite Block :=
  Finite.of_injective (fun b : Block => (b.hi, b.lo)) fun b b' h => by
    obtain ⟨hhi, hlo⟩ := Prod.mk.inj h
    rw [← b.ofWords_hi_lo, hhi, hlo, b'.ofWords_hi_lo]

/-- Among finitely many blocks, what is undone on one side is undone on the other. -/
theorem encBlock_decBlock (sk : Vector DWord 34) (k : KeyClass) (blk : Block) :
    encBlock sk k (decBlock sk k blk) = blk := by
  have hleft : Function.LeftInverse (decBlock sk k) (encBlock sk k) := decBlock_encBlock sk k
  have hsurjective : Function.Surjective (encBlock sk k) :=
    have := finite_block
    Finite.injective_iff_surjective.1 hleft.injective
  exact hleft.rightInverse_of_surjective hsurjective blk

/-- Settles O38: decryption goes back over the steps of encryption, hence encryption permutes the finitely many blocks. -/
theorem blockRoundTrip : Obligations.BlockRoundTrip :=
  fun sk k blk => ⟨decBlock_encBlock sk k blk, encBlock_decBlock sk k blk⟩

/-! ### A transform command (R176 to R181) -/

/-- Without a schedule a transform raises KeyNotSet before anything else (R222, R227). -/
theorem CoreState.transform_of_no_schedule {f : Vector DWord 34 → KeyClass → Block → Block} {c : CoreState}
    (h : c.variant = 0) : c.transform f = .ok (c.raise .keyNotSet) := by
  rw [CoreState.transform, KeyClass.ofVariant_eq_none_iff.2 h]

/-- A transform that runs and whose block loop answers replaces `DATA` and sets `ERR` to 0 (R176, R177). -/
theorem exec_of_transformBlocks {i : Instr} {f : Vector DWord 34 → KeyClass → Block → Block} {s : State} {k : KeyClass}
    {m : Memory} (hi : TransformCommand i f) (hk : KeyClass.ofVariant s.core.variant = some k)
    (hr : s.core.inRange = true)
    (hm : transformBlocks (f s.core.sk k) s.core.blockCount s.core.srcAddr s.core.dstAddr s.core.data = .ok m) :
    exec i s = .next { s with core := { s.core with data := m, err := 0 } } := by
  rw [exec_of_transformCommand hi, CoreState.transform_of_ok hk hr hm]
  rfl

/-- A transform that runs and meets no unwritten byte completes with what its block loop leaves (R57, R178). -/
theorem exists_exec_of_inputReady {i : Instr} {f : Vector DWord 34 → KeyClass → Block → Block} {s : State}
    (hi : TransformCommand i f) (hruns : s.core.TransformRuns) (hready : s.core.InputReady) :
    ∃ k m, KeyClass.ofVariant s.core.variant = some k ∧
      transformBlocks (f s.core.sk k) s.core.blockCount s.core.srcAddr s.core.dstAddr s.core.data = .ok m ∧
      exec i s = .next { s with core := { s.core with data := m, err := 0 } } := by
  obtain ⟨hvariant, hrange⟩ := hruns
  obtain ⟨k, hk⟩ := KeyClass.exists_ofVariant hvariant
  obtain ⟨m, hm⟩ := transformBlocks_total (f := f s.core.sk k) hready
  exact ⟨k, m, hk, hm, exec_of_transformBlocks hi hk hrange hm⟩

/-- Input that is written before the command is ready for its blocks. -/
theorem CoreState.InputWritten.ready {c : CoreState} (h : c.InputWritten) : c.InputReady := fun i hi => .inl (h i hi)

/-- Settles O41: the loop over no block answers the data it was given. -/
theorem transformOfNoBlockOnlySetsErr : Obligations.TransformOfNoBlockOnlySetsErr := by
  intro s i hcommand hzero
  obtain ⟨f, hi⟩ := exists_transformCommand hcommand
  refine ⟨fun hvariant => ?_, fun hvariant => ?_⟩
  · obtain ⟨k, hk⟩ := KeyClass.exists_ofVariant hvariant
    have hcount : s.core.blockCount = 0 := by simp [CoreState.blockCount, hzero]
    have hloop : transformBlocks (f s.core.sk k) s.core.blockCount s.core.srcAddr s.core.dstAddr s.core.data =
        .ok s.core.data := by rw [hcount, transformBlocks]
    exact exec_of_transformBlocks hi hk (s.core.inRange_iff.2 (.inl hzero)) hloop
  · rw [exec_of_transformCommand hi, CoreState.transform_of_no_schedule hvariant]
    rfl

/-- Settles O42: what the block loop leaves, outside and inside its output range. -/
theorem transformCompletes : Obligations.TransformCompletes := by
  intro s i hcommand hruns hready
  obtain ⟨f, hi⟩ := exists_transformCommand hcommand
  obtain ⟨k, m, -, hm, hexec⟩ := exists_exec_of_inputReady hi hruns hready
  exact ⟨m, hexec, fun a => transformBlocks_read_outside hm, fun a => transformBlocks_read_inside hm⟩

/-- Where the ranges are the same or do not meet, the loop maps each input block to its output block (R51, R62): the
blocks before block `n` write neither its input nor, after it, its output. -/
theorem transformBlocks_readBlock {f : Block → Block} {n src dst b : Nat} {m m' : Memory}
    (h : transformBlocks f n src dst m = .ok m')
    (hranges : src = dst ∨ src + 16 * n ≤ dst ∨ dst + 16 * n ≤ src) (hb : b < n) :
    ∃ blk, Memory.readBlock m (src + 16 * b) = .ok blk ∧ Memory.readBlock m' (dst + 16 * b) = .ok (f blk) := by
  induction n generalizing m' with
  | zero => omega
  | succ n ih =>
    obtain ⟨m1, blk, h1, hread, rfl⟩ := transformBlocks_succ_eq_ok h
    by_cases hlast : b = n
    · subst hlast
      refine ⟨blk, Memory.readBlock_eq_ok_iff.2 fun j => ?_, Memory.readBlock_writeBlock _ _ _⟩
      have huntouched : ¬ (dst ≤ src + 16 * b + j.val ∧ src + 16 * b + j.val < dst + 16 * b) := by omega
      rw [← transformBlocks_read_outside h1 huntouched]
      exact Memory.readBlock_eq_ok_iff.1 hread j
    · obtain ⟨blk', hin, hout⟩ := ih h1 (by omega) (by omega)
      exact ⟨blk', hin, (Memory.readBlock_writeBlock_of_disjoint (by omega)).trans hout⟩

/-- Settles O43: the block loop of the transform, block by block. -/
theorem transformMapsEveryBlock : Obligations.TransformMapsEveryBlock := by
  intro s i f hi hruns hwritten hranges
  obtain ⟨k, m, hk, hm, hexec⟩ := exists_exec_of_inputReady hi hruns hwritten.ready
  exact ⟨_, k, hexec, hk, fun b hb => transformBlocks_readBlock hm hranges hb⟩

/-- A range check that holds for more blocks holds for fewer (R179). -/
theorem CoreState.inRange_of_le {c : CoreState} {n : Word} (hr : c.inRange = true) (hn : n.toNat ≤ c.nblk.toNat) :
    CoreState.inRange { c with nblk := n } = true := by
  rw [CoreState.inRange_iff] at hr ⊢
  obtain hzero | ⟨hsrc, hdst⟩ := hr
  · have hn0 : n.toNat = 0 := by simpa [hzero] using hn
    exact .inl (BitVec.eq_of_toNat_eq hn0)
  · exact .inr ⟨by dsimp only; omega, by dsimp only; omega⟩

/-- Settles O44: the loop over `n + 1` blocks is that over `n`, which a transform of `n` blocks runs, and one block. -/
theorem transformIsBlockSequential : Obligations.TransformIsBlockSequential := by
  intro s t i f n hi hruns hcount ht
  obtain ⟨hvariant, hrange⟩ := hruns
  rw [exec_of_transformCommand hi] at ht
  obtain ⟨c, hc, rfl⟩ := State.commit_eq_next_iff.1 ht
  obtain ⟨h0, -⟩ | ⟨-, hout, -⟩ | ⟨k, m, hk, -, hm, rfl⟩ := CoreState.transform_eq_ok_cases hc
  · exact absurd h0 hvariant
  · simp [hrange] at hout
  · rw [CoreState.blockCount, hcount] at hm
    obtain ⟨m1, blk, hfirst, hread, rfl⟩ := transformBlocks_succ_eq_ok hm
    have hn : (BitVec.ofNat 32 n).toNat = n := Nat.mod_eq_of_lt (by omega)
    have hfewer : CoreState.inRange { s.core with nblk := BitVec.ofNat 32 n } = true :=
      CoreState.inRange_of_le hrange (by omega)
    refine ⟨_, k, blk, exec_of_transformBlocks hi hk hfewer (m := m1) ?_, hk, hread, rfl⟩
    rw [CoreState.blockCount, hn]
    exact hfirst

/-! ### A buffer there and back in place (R62, R175) -/

/-- In place, a loop whose per-block function undoes that of the loop before it restores the memory. -/
theorem transformBlocks_in_place_undo {f g : Block → Block} (hgf : Function.LeftInverse g f) {n src dst : Nat}
    {m m' : Memory} (hm : Memory.wf m) (hplace : src = dst) (h : transformBlocks f n src dst m = .ok m') :
    transformBlocks g n src dst m' = .ok m := by
  subst hplace
  obtain ⟨m2, h2⟩ := transformBlocks_total (f := g) (n := n) (src := src) (dst := src) (m := m') fun i hi =>
    .inl (transformBlocks_read_inside h (by omega))
  have hread : ∀ x, Memory.read m2 x = Memory.read m x := fun x => by
    by_cases hx : src ≤ x ∧ x < src + 16 * n
    · obtain ⟨b, j, hb, rfl⟩ : ∃ (b : Nat) (j : Fin 16), b < n ∧ x = src + 16 * b + j.val :=
        ⟨(x - src) / 16, ⟨(x - src) % 16, by omega⟩, by omega, by dsimp only; omega⟩
      obtain ⟨blk, hin, hmid⟩ := transformBlocks_readBlock h (.inl rfl) hb
      obtain ⟨blk', hmid', hout⟩ := transformBlocks_readBlock h2 (.inl rfl) hb
      obtain rfl : f blk = blk' := Except.ok.inj (hmid.symm.trans hmid')
      rw [hgf] at hout
      rw [Memory.readBlock_eq_ok_iff.1 hin j, Memory.readBlock_eq_ok_iff.1 hout j]
    · rw [transformBlocks_read_outside h2 hx, transformBlocks_read_outside h hx]
  rw [h2, Memory.ext_read (transformBlocks_wf h2 (transformBlocks_wf h hm)) hm hread]

/-- In place, a transform whose per-block function undoes that of the transform before it restores the state but for
`ERR`. -/
theorem exec_in_place_undo {i j : Instr} {f g : Vector DWord 34 → KeyClass → Block → Block} (hi : TransformCommand i f)
    (hj : TransformCommand j g) (hgf : ∀ sk k, Function.LeftInverse (g sk k) (f sk k)) {s : State} (hs : s.Inv)
    (hruns : s.core.TransformRuns) (hwritten : s.core.InputWritten) (hplace : s.core.src = s.core.dst) :
    ∃ t, exec i s = .next t ∧ exec j t = .next { s with core := { s.core with err := 0 } } := by
  obtain ⟨-, hwf, -⟩ := hs.core
  obtain ⟨k, m, hk, hm, hexec⟩ := exists_exec_of_inputReady hi hruns hwritten.ready
  have haddr : s.core.srcAddr = s.core.dstAddr := congrArg BitVec.toNat hplace
  have hback := transformBlocks_in_place_undo (hgf s.core.sk k) hwf haddr hm
  obtain ⟨-, hrange⟩ := hruns
  exact ⟨_, hexec, exec_of_transformBlocks hj hk hrange hback⟩

/-- Settles O45: in either order the second per-block function undoes the first. -/
theorem inPlaceBufferRoundTrip : Obligations.InPlaceBufferRoundTrip := by
  intro s hs hruns hwritten hplace
  have henc : TransformCommand .encryptBlocks encBlock := .inl ⟨rfl, rfl⟩
  have hdec : TransformCommand .decryptBlocks decBlock := .inr ⟨rfl, rfl⟩
  exact ⟨exec_in_place_undo henc hdec decBlock_encBlock hs hruns hwritten hplace,
    exec_in_place_undo hdec henc encBlock_decBlock hs hruns hwritten hplace⟩

end Sys2Proof.Machine

/-! PROOFS. Control and host accesses (R200 to R204): what a register or data access inside the contract does, offset by
offset, and the commands NOP and CLEAR. -/

namespace Sys2Proof.Machine

/-! ### Register accesses (R202, R203) -/

/-- From offset 0x020 on the block holds the key buffer and reserved offsets only (R70). -/
theorem Reg.ofOffset_of_le {off : Nat} (h4 : off % 4 = 0) (h : 0x020 ≤ off) :
    (∃ j, Reg.ofOffset off = .key j) ∨ Reg.ofOffset off = .reserved := by
  by_cases hkey : off < 0x040
  · have hoff : 0x020 + 4 * ((off - 0x020) / 4) = off := by omega
    exact .inl ⟨_, hoff ▸ Reg.ofOffset_key ⟨(off - 0x020) / 4, by omega⟩⟩
  · exact .inr (Reg.ofOffset_reserved h4 (by omega))

/-- `CMD`, the key buffer and reserved offsets return 0 (R203). -/
theorem CoreState.readReg_ofOffset_eq_zero (c : CoreState) {off : Nat} (h4 : off % 4 = 0)
    (h : off = 0x000 ∨ off = 0x018 ∨ off = 0x01C ∨ 0x020 ≤ off) : c.readReg (Reg.ofOffset off) = 0 := by
  obtain rfl | rfl | rfl | hle := h
  · rfl
  · rfl
  · rfl
  · obtain ⟨j, hreg⟩ | hreg := Reg.ofOffset_of_le h4 hle <;> rw [hreg] <;> rfl

/-- Settles O10: the value recorded is that of the register at the offset. -/
theorem registerReadsReturn : Obligations.RegisterReadsReturn := by
  intro s t k off hnext h4 hlt
  obtain ⟨hindex, -⟩ := hnext.facts
  refine ⟨t.core.readReg (Reg.ofOffset off), ?_, ?_, ?_, ?_, ?_, ?_, t.core.readReg_ofOffset_eq_zero h4⟩
  · rw [← hindex]
    exact (step_of_nextIs hnext).trans (hostRegRead_ok (regAccessOk_iff.2 ⟨rfl, h4, hlt⟩))
  all_goals
    rintro rfl
    rfl

/-- The step of a register write in the contract stores to the register at its offset, unless that is `CMD` (R202). -/
theorem step_of_regWrite {s t : State} {k off : Nat} {v : Word} (hnext : s.NextIs k (.regWrite off 4 v) t)
    (h4 : off % 4 = 0) (hlt : off < 0x100) {r : Reg} (hreg : Reg.ofOffset off = r) (hr : r ≠ .cmd) :
    step s = .next (t.withCore (t.core.writeReg r v)) := by
  subst hreg
  exact (step_of_nextIs hnext).trans (hostRegWrite_of_ne_cmd (regAccessOk_iff.2 ⟨rfl, h4, hlt⟩) hr)

/-- Settles O9: each offset names its register, and the store is that register's. -/
theorem registerWritesStore : Obligations.RegisterWritesStore := by
  intro s t k off v hnext
  refine ⟨fun hoff => ?_, fun hoff => ?_, fun hoff => ?_, fun hoff => ?_, fun j hoff => ?_, fun h4 hoff => ?_⟩
  · exact step_of_regWrite hnext (by omega) (by omega) (r := .keylen) (hoff ▸ rfl) nofun
  · exact step_of_regWrite hnext (by omega) (by omega) (r := .nblk) (hoff ▸ rfl) nofun
  · exact step_of_regWrite hnext (by omega) (by omega) (r := .src) (hoff ▸ rfl) nofun
  · exact step_of_regWrite hnext (by omega) (by omega) (r := .dst) (hoff ▸ rfl) nofun
  · exact step_of_regWrite hnext (by omega) (by omega) (r := .key j) (hoff ▸ Reg.ofOffset_key j) nofun
  · by_cases hstatus : off = 0x004
    · exact step_of_regWrite hnext h4 (by omega) (r := .status) (hstatus ▸ rfl) nofun
    · exact step_of_regWrite hnext h4 (by omega) (Reg.ofOffset_reserved h4 (by omega)) nofun

/-! ### Data accesses (R57, R60, R204) -/

/-- Settles O12: the new memory is the old one with the byte written. -/
theorem dataWriteStoresOneByte : Obligations.DataWriteStoresOneByte := by
  intro s t k a b hnext ha
  have hstep := (step_of_nextIs hnext).trans (hostDataWrite_ok (dataAccessOk_iff.2 ⟨rfl, ha⟩))
  exact ⟨_, hstep, Memory.read_write_self _ a b, fun _ hne => Memory.read_write_of_ne hne⟩

/-- Settles O13: the access is in the contract, and the byte is written or it is not. -/
theorem dataReadReturnsOrFaults : Obligations.DataReadReturnsOrFaults := by
  intro s t k a hnext ha
  obtain ⟨hindex, -⟩ := hnext.facts
  have hok : dataAccessOk t.core.bufBytes a 1 = true := dataAccessOk_iff.2 ⟨rfl, ha⟩
  refine ⟨fun b hb => ?_, fun hb => ?_⟩
  · rw [← hindex]
    exact (step_of_nextIs hnext).trans (hostDataRead_ok hok hb)
  · exact (step_of_nextIs hnext).trans (hostDataRead_unwritten hok hb)

/-! ### NOP and CLEAR (R200, R201) -/

/-- Settles O19: NOP replaces the copy in front by itself with `ERR` 0. -/
theorem nopClearsErrOnly : Obligations.NopClearsErrOnly := exec_nop

/-- A transform without a schedule reports KeyNotSet and does nothing else (R222). -/
theorem exec_of_no_schedule {i : Instr} {f : Vector DWord 34 → KeyClass → Block → Block} {s : State}
    (hi : TransformCommand i f) (h : s.core.variant = 0) :
    exec i s = .next { s with core := { s.core with err := 2 } } := by
  rw [exec_of_transformCommand hi, CoreState.transform_of_no_schedule h]
  rfl

/-- Settles O20: the copy with its keys erased has every key field 0, and `VARIANT` among them is no schedule. -/
theorem clearErasesTheKeyMaterial : Obligations.ClearErasesTheKeyMaterial := by
  intro s
  have hvariant : (s.withCore s.core.eraseKeys.succeed).core.variant = 0 := rfl
  refine ⟨_, exec_clear s, rfl, fun i => ?_, fun j => ?_, exec_clear _, ?_, ?_⟩
  · simp
  · simp
  · exact exec_of_no_schedule (.inl ⟨rfl, rfl⟩) hvariant
  · exact exec_of_no_schedule (.inr ⟨rfl, rfl⟩) hvariant

end Sys2Proof.Machine

/-! PROOFS. Errors of commands (R220 to R229): when a command reports one, that it is decided from registers alone and
writes no `DATA` byte, and that only commands and resets write `ERR`. -/

namespace Sys2Proof.Machine

/-! ### A transform that reports an error (R222, R224) -/

/-- Settles O39: both transforms check the schedule first. -/
theorem transformWithoutScheduleRaisesKeyNotSet : Obligations.TransformWithoutScheduleRaisesKeyNotSet := by
  intro s i hcommand hvariant
  obtain ⟨f, hi⟩ := exists_transformCommand hcommand
  exact exec_of_no_schedule hi hvariant

/-- The bounds check fails where there are blocks and one of the two ranges leaves the buffer (R179, R224). -/
theorem CoreState.inRange_eq_false_iff (c : CoreState) :
    c.inRange = false ↔ c.nblk ≠ 0 ∧ (c.bufBytes < c.src.toNat + 16 * c.nblk.toNat ∨
      c.bufBytes < c.dst.toNat + 16 * c.nblk.toNat) := by
  rw [← Bool.not_eq_true, c.inRange_iff, not_or, not_and_or, not_le, not_le]

/-- With a schedule, a transform whose ranges fail the bounds check raises BufferRange before any access (R224). -/
theorem CoreState.transform_of_out_of_range {f : Vector DWord 34 → KeyClass → Block → Block} {c : CoreState}
    (hvariant : c.variant ≠ 0) (hrange : c.inRange = false) : c.transform f = .ok (c.raise .bufferRange) := by
  obtain ⟨k, hk⟩ := KeyClass.exists_ofVariant hvariant
  simp [CoreState.transform, hk, hrange]

/-- Such a transform reports BufferRange and does nothing else (R224). -/
theorem exec_of_out_of_range {i : Instr} {f : Vector DWord 34 → KeyClass → Block → Block} {s : State}
    (hi : TransformCommand i f) (hvariant : s.core.variant ≠ 0) (hrange : s.core.inRange = false) :
    exec i s = .next { s with core := { s.core with err := 4 } } := by
  rw [exec_of_transformCommand hi, CoreState.transform_of_out_of_range hvariant hrange]
  rfl

/-- Settles O40: the premises are those of the failing bounds check. -/
theorem transformOutsideTheBufferRaisesBufferRange : Obligations.TransformOutsideTheBufferRaisesBufferRange := by
  intro s i hcommand hvariant hblocks hout
  obtain ⟨f, hi⟩ := exists_transformCommand hcommand
  exact exec_of_out_of_range hi hvariant (s.core.inRange_eq_false_iff.2 ⟨hblocks, hout⟩)

/-! ### Errors are decided from registers alone (R225) -/

/-- The three ways in which a command reports an error, each with the registers that decide it (R221, R222, R224). -/
theorem exec_error_cases {i : Instr} {s t : State} (h : exec i s = .next t) (herr : t.core.err ≠ 0) :
    (i = .deriveSchedule ∧ KeyClass.ofLength s.core.keylen.toNat = none ∧
      t = s.withCore (s.core.eraseKeys.raise .invalidKeyLength)) ∨
    (∃ f, TransformCommand i f ∧ s.core.variant = 0 ∧ t = s.withCore (s.core.raise .keyNotSet)) ∨
    (∃ f, TransformCommand i f ∧ s.core.variant ≠ 0 ∧ s.core.inRange = false ∧
      t = s.withCore (s.core.raise .bufferRange)) := by
  obtain ⟨c, rfl, ⟨-, rfl⟩ | ⟨-, rfl⟩ | ⟨rfl, rfl⟩ | ⟨f, hf, hc⟩⟩ := exec_eq_next_cases h
  case inl => exact absurd rfl herr
  case inr.inl => exact absurd rfl herr
  case inr.inr.inl =>
    obtain ⟨hlen, hd⟩ | ⟨k, -, hd⟩ := s.core.deriveSchedule_cases
    · exact .inl ⟨rfl, hlen, by rw [hd]⟩
    · simp [hd] at herr
  case inr.inr.inr =>
    obtain ⟨hv, rfl⟩ | ⟨hv, hr, rfl⟩ | ⟨k, m, -, -, -, rfl⟩ := CoreState.transform_eq_ok_cases hc
    · exact .inr (.inl ⟨f, hf, hv, rfl⟩)
    · exact .inr (.inr ⟨f, hf, hv, hr, rfl⟩)
    · exact absurd rfl herr

/-- DERIVE_SCHEDULE with a length that has no class erases the keys and reports InvalidKeyLength (R149, R221). -/
theorem exec_deriveSchedule_of_bad_length {s : State} (h : KeyClass.ofLength s.core.keylen.toNat = none) :
    exec .deriveSchedule s = .next (s.withCore (s.core.eraseKeys.raise .invalidKeyLength)) := by
  rw [exec_deriveSchedule, CoreState.deriveSchedule_of_bad_length h]

/-- Settles O47: each error keeps `DATA`, and the registers that decide it are the same on a copy with other data. -/
theorem anErrorWritesNoData : Obligations.AnErrorWritesNoData := by
  intro i s t h herr
  obtain ⟨rfl, hlen, rfl⟩ | ⟨f, hf, hv, rfl⟩ | ⟨f, hf, hv, hr, rfl⟩ := exec_error_cases h herr
  · exact ⟨rfl, fun m => exec_deriveSchedule_of_bad_length hlen⟩
  · exact ⟨rfl, fun m => exec_of_no_schedule hf hv⟩
  · exact ⟨rfl, fun m => exec_of_out_of_range hf hv hr⟩

/-! ### The result code of a command word (R30, R226) -/

/-- The lengths that have a class are 16, 24 and 32 bytes (R7). -/
theorem KeyClass.exists_ofLength_iff {v : Word} :
    (∃ k, KeyClass.ofLength v.toNat = some k) ↔ v = 16 ∨ v = 24 ∨ v = 32 := by
  constructor
  · rintro ⟨k, hk⟩
    have hlen := KeyClass.ofLength_eq_some_iff.1 hk
    cases k with
    | k128 => exact .inl (BitVec.eq_of_toNat_eq hlen)
    | k192 => exact .inr (.inl (BitVec.eq_of_toNat_eq hlen))
    | k256 => exact .inr (.inr (BitVec.eq_of_toNat_eq hlen))
  · rintro (rfl | rfl | rfl)
    · exact ⟨.k128, rfl⟩
    · exact ⟨.k192, rfl⟩
    · exact ⟨.k256, rfl⟩

/-- DERIVE_SCHEDULE reports OK exactly for an accepted length (R149, R221). -/
theorem CoreState.deriveSchedule_err (c : CoreState) :
    c.deriveSchedule.err = if c.keylen = 16 ∨ c.keylen = 24 ∨ c.keylen = 32 then 0 else 1 := by
  obtain ⟨hlen, hd⟩ | ⟨k, hlen, hd⟩ := c.deriveSchedule_cases
  · have hbad : ¬ (c.keylen = 16 ∨ c.keylen = 24 ∨ c.keylen = 32) := fun h => by
      obtain ⟨k, hk⟩ := KeyClass.exists_ofLength_iff.2 h
      simp [hlen] at hk
    rw [hd, if_neg hbad]
    rfl
  · rw [hd, if_pos (KeyClass.exists_ofLength_iff.1 ⟨k, hlen⟩)]
    rfl

/-- A transform that answers reports the code of its copy's operands, KeyNotSet before BufferRange (R227). -/
theorem CoreState.transform_err {f : Vector DWord 34 → KeyClass → Block → Block} {c d : CoreState}
    (h : c.transform f = .ok d) : d.err = c.transformCode := by
  simp only [CoreState.transformCode, ← c.inRange_eq_false_iff]
  obtain ⟨hv, rfl⟩ | ⟨hv, hr, rfl⟩ | ⟨k, m, hk, hr, -, rfl⟩ := CoreState.transform_eq_ok_cases h
  · rw [if_pos hv]
    rfl
  · rw [if_neg hv, if_pos hr]
    rfl
  · have hv : c.variant ≠ 0 := fun h0 => by simp [KeyClass.ofVariant_eq_none_iff.2 h0] at hk
    rw [if_neg hv, if_neg (by simp [hr])]
    rfl

/-- The code of a word that decodes to a transform is that of the transform. -/
theorem CoreState.resultCode_of_transformCommand {w : Word} {i : Instr}
    {f : Vector DWord 34 → KeyClass → Block → Block} (hdecode : decode w = .ok i) (hi : TransformCommand i f)
    (c : CoreState) : c.resultCode w = c.transformCode := by
  obtain ⟨rfl, -⟩ | ⟨rfl, -⟩ := hi <;> simp [CoreState.resultCode, hdecode]

/-- A `CMD` write that answers leaves in `ERR` the code of its word (R226). -/
theorem runCommand_err {w : Word} {s t : State} (h : runCommand w s = .next t) :
    t.core.err = s.core.resultCode w := by
  obtain ⟨i, hdecode, hexec⟩ | ⟨⟨e, hdecode⟩, rfl⟩ := runCommand_eq_next_cases h
  · obtain ⟨c, rfl, ⟨rfl, rfl⟩ | ⟨rfl, rfl⟩ | ⟨rfl, rfl⟩ | ⟨f, hf, hc⟩⟩ := exec_eq_next_cases hexec
    · simp [CoreState.resultCode, hdecode]
    · simp [CoreState.resultCode, hdecode]
    · simp [CoreState.resultCode, hdecode, CoreState.deriveSchedule_err]
    · exact (CoreState.transform_err hc).trans (CoreState.resultCode_of_transformCommand hdecode hf _).symm
  · simp [CoreState.resultCode, hdecode, ErrorCode.code]

/-! ### `ERR` is never read by a command (R226) -/

theorem CoreState.deriveSchedule_withErr (c : CoreState) (e : BitVec 4) :
    CoreState.deriveSchedule { c with err := e } = c.deriveSchedule := rfl

theorem CoreState.transform_withErr (f : Vector DWord 34 → KeyClass → Block → Block) (c : CoreState) (e : BitVec 4) :
    CoreState.transform f { c with err := e } = c.transform f := rfl

/-- A command overwrites `ERR` without reading it: also where it faults, it does so alike. -/
theorem exec_withErr (i : Instr) (s : State) (e : BitVec 4) :
    exec i { s with core := { s.core with err := e } } = exec i s := by
  cases i with
  | nop => rfl
  | deriveSchedule => rw [exec_deriveSchedule, exec_deriveSchedule, CoreState.deriveSchedule_withErr]; rfl
  | encryptBlocks => rw [exec_encryptBlocks, exec_encryptBlocks, CoreState.transform_withErr]; rfl
  | decryptBlocks => rw [exec_decryptBlocks, exec_decryptBlocks, CoreState.transform_withErr]; rfl
  | clear => rfl

theorem runCommand_withErr (w : Word) (s : State) (e : BitVec 4) :
    runCommand w { s with core := { s.core with err := e } } = runCommand w s := by
  cases hdecode : decode w with
  | ok i => rw [runCommand_of_decode hdecode, runCommand_of_decode hdecode, exec_withErr]
  | error r => rw [runCommand_of_decode_error hdecode, runCommand_of_decode_error hdecode]; rfl

/-! ### No other access writes `ERR` (R226) -/

/-- Replacing the copy in front by one with the same `ERR` changes `ERR` in no copy. -/
theorem State.copies_map_err_withCore {s : State} {c : CoreState} (h : c.err = s.core.err) :
    (s.withCore c).copies.map CoreState.err = s.copies.map CoreState.err := by
  simp [State.copies, h]

/-- An access that is neither a `CMD` write nor a reset changes `ERR` in no copy: a store keeps that of its copy, and a
read changes no copy. -/
theorem hostOp_keeps_err {op : HostOp} {s t : State} (h : hostOp op s = .next t) (hcommand : op.isCommand = false)
    (hreset : op ≠ .reset) : t.copies.map CoreState.err = s.copies.map CoreState.err := by
  obtain ⟨w, rfl, -⟩ | ⟨off, v, -, -, rfl⟩ | ⟨a, b, -, -, rfl⟩ | ⟨off, -, rfl⟩ | ⟨a, b, -, -, rfl⟩ | ⟨hop, -⟩ :=
    hostOp_eq_next_cases h
  · cases hcommand
  · obtain ⟨-, -, herr, -, -⟩ := s.core.writeReg_frame (Reg.ofOffset off) v
    exact State.copies_map_err_withCore herr
  · exact State.copies_map_err_withCore rfl
  · rfl
  · rfl
  · exact absurd hop hreset

/-- Settles O49: the code of the word, its independence of the old `ERR`, and the accesses that keep it. -/
theorem onlyCommandsWriteErr : Obligations.OnlyCommandsWriteErr := by
  refine ⟨fun w s t => runCommand_err, runCommand_withErr, fun s t u k op hnext hcommand hreset hu => ?_⟩
  obtain ⟨-, hcopies, -, -⟩ := hnext.facts
  rw [← hcopies]
  exact hostOp_keeps_err (step_of_nextIs hnext ▸ hu) hcommand hreset

end Sys2Proof.Machine

/-! PROOFS. Reset (R260, R262): what a copy holds after a reset, what the copies of the reset state are, and the base
case of the platform's invariant. -/

namespace Sys2Proof.Machine

/-! ### One copy after reset -/

/-- No key word is left of a copy that is reset (R262). -/
theorem CoreState.reset_key (n : Nat) (j : Fin 8) : (CoreState.reset n).key[j.val] = 0 :=
  Vector.getElem_replicate j.isLt

/-- No subkey is left of a copy that is reset (R262). -/
theorem CoreState.reset_sk (n : Nat) (i : Fin 34) : (CoreState.reset n).sk[i.val] = 0 :=
  Vector.getElem_replicate i.isLt

/-- Every field of `STATUS` is 0 after a reset, hence the word is (R27). -/
theorem CoreState.reset_status (n : Nat) : (CoreState.reset n).status = 0 := by
  have hset : (CoreState.reset n).keySet = 0 := rfl
  apply BitVec.eq_of_toNat_eq
  rw [CoreState.status_toNat, hset]
  rfl

/-! ### The copies of the reset state -/

/-- Every copy of the reset state is a copy after reset with a buffer of the platform's size (R9, R260). -/
theorem CoreState.eq_reset_of_mem_reset_copies {c : CoreState} (h : c ∈ State.reset.copies) :
    c = CoreState.reset Config.bufBytes := by
  obtain rfl | hafter : c = CoreState.reset Config.bufBytes ∨
      c ∈ List.replicate Config.otherCopies (CoreState.reset Config.bufBytes) := List.mem_cons.1 h
  · rfl
  · exact List.eq_of_mem_replicate hafter

/-- The platform's buffers hold at least one block (R9). -/
theorem Config.le_bufBytes : 16 ≤ Config.bufBytes := Nat.le_add_left 16 _

/-! ### The obligations -/

/-- Settles O16: the step is the reset of the copy in front, with the buffer size it had. -/
theorem resetClearsTheCopy : Obligations.ResetClearsTheCopy := by
  intro s t k hnext
  have hstep : step s = .next (t.withCore (CoreState.reset t.core.bufBytes)) := step_of_nextIs hnext
  exact ⟨CoreState.reset t.core.bufBytes, hstep, rfl, rfl, rfl, rfl, CoreState.reset_key _, CoreState.reset_sk _, rfl, rfl,
    CoreState.reset_status _, fun _ => rfl, rfl⟩

/-- Settles O17: each copy is one after reset, and the copy in front is always there. -/
theorem resetStateIsAsTheSpecSays : Obligations.ResetStateIsAsTheSpecSays := by
  refine ⟨fun c hc => ?_, List.length_pos_of_mem State.reset.core_mem_copies, rfl, rfl⟩
  rw [CoreState.eq_reset_of_mem_reset_copies hc]
  exact ⟨rfl, rfl, rfl, rfl, CoreState.reset_key _, CoreState.reset_sk _, CoreState.reset_status _, fun _ => rfl,
    Config.le_bufBytes⟩

/-- Settles O54: each copy is one after reset, which has the invariant of a copy. -/
theorem resetStateHasThePlatformInvariant : Obligations.ResetStateHasThePlatformInvariant := by
  intro c hc
  rw [CoreState.eq_reset_of_mem_reset_copies hc]
  exact CoreState.inv_reset Config.le_bufBytes

end Sys2Proof.Machine
